-- ==== Sys2Proof/Word.lean ====
section
/-! DEFINITION. The machine's words: a 64-bit register value or address, a byte, an instruction word,
a register field (00_scope R6, 30_encoding R70, R74). -/

namespace Sys2Proof

/-- A register value or a byte address: 64 bits, arithmetic modulo 2^64 (00_scope R6). -/
abbrev Word := BitVec 64

/-- One byte of memory (20_memory R40). -/
abbrev Byte := BitVec 8

/-- An instruction word: every instruction is exactly one 32-bit word (30_encoding R70). -/
abbrev InstrWord := BitVec 32

/-- A register field: 0 to 30 name X0 to X30, 31 is the zero register (30_encoding R74, 10_state R12).
An index above 31 is not a value of the type (93_implementation_defined U7; DEDUCED, safe, log 21). -/
abbrev Reg := BitVec 5

/-- The zero register, written XZR in the spec (10_state R12). -/
def xzr : Reg := 31#5

/-- X30, the link register of BL and BLR and the default target of RET (10_state R11). -/
def linkReg : Reg := 30#5

end Sys2Proof
end

