-- ==== Sys2Proof/Config.lean ====
section
/-! DEFINITION. The three implementation parameters of 00_scope R5. -/

namespace Sys2Proof

/-- The parameters a machine is constructed with (00_scope R5). They are fixed for its life: no step and
no host operation changes them. -/
structure Config where
  /-- MEM_SIZE: the size of the memory in bytes. -/
  memSize : Nat
  /-- The bound the spec puts on MEM_SIZE (00_scope R5, 70_reset_and_hazards R260). -/
  memSize_lt : memSize < 2 ^ 64
  /-- SP_RESET: the value the stack pointer takes at construction and reset (10_state R14). -/
  spReset : Word
  /-- DECODE_EORI: whether the decoder produces EORI (30_encoding R93). The spec's default is false. -/
  decodeEori : Bool := false
deriving DecidableEq, Repr

/-- The parameters of the machine `Machine.State.reset`. MEM_SIZE and SP_RESET are open in the spec:
DESIGN CHOICE, unsafe (logs 1 and 2). DECODE_EORI is the spec's default (00_scope R5, log 3). Every
statement of this package about a step holds for every value of the three. -/
def Config.reference : Config where
  memSize := 0x1000000
  memSize_lt := by decide
  spReset := 0xFFFFFFFFFFFFFFF0#64
  decodeEori := false

end Sys2Proof
end

