-- ==== Sys2Proof/Syntax.lean ====
section
/-! DEFINITION. Conditions, the Instruction record of 10_state R26 (the interface between decode and
execute), and `Instr`: one constructor for each row of spec/opcode_table.json. -/

namespace Sys2Proof

/-- The sixteen conditions, in the source's order; they have no numeric codes (10_state R26,
40_execution_cycle R110). -/
inductive Cond where
  | eq | ne | cs | cc | mi | pl | vs | vc | hi | ls | ge | lt | gt | le | al | nv
deriving DecidableEq, Repr

/-- The closed opcode enumeration of 10_state R26: nineteen opcodes and INVALID. -/
inductive Opcode where
  | add | sub | and | orr | eor | addi | subi | andi | orri | eori
  | ldur | stur | b | bl | br | blr | ret | cbz | cbnz | invalid
deriving DecidableEq, Repr

/-- The addressing modes of 10_state R26. LITERAL has no defined meaning (43_load_store R175). -/
inductive AddrMode where
  | offset | preIndex | postIndex | literal
deriving DecidableEq, Repr

/-- The Instruction record: the decoder's output and the execute stage's input (10_state R26). A field
default is what the decoder drives it to where the opcode does not use it (30_encoding R81). -/
structure Record where
  opcode : Opcode
  cond : Cond := .al
  rd : Reg := 0
  rn : Reg := 0
  rm : Reg := 0
  ra : Reg := 0
  /-- A signed integer representable in 64 bits, as its two's complement word. -/
  imm : Word := 0
  /-- 0 to 63; the decoder produces 0 to 3 (30_encoding R84). -/
  shift : BitVec 6 := 0
  mode : AddrMode := .offset
  writeback : Bool := false
deriving DecidableEq, Repr

/-- What the decoder returns for a word that encodes no instruction (30_encoding R81, R90). -/
def Record.ofInvalid : Record := { opcode := .invalid }

/-- The instructions: one constructor per row of spec/opcode_table.json, with the operands the
Instruction record carries for it (10_state R13, R26). The condition is the record's; the decoder
always gives AL (30_encoding R87). An immediate is the record's: already sign-extended and, for the
branches, already scaled to a byte count (DEDUCED, logs 8 and 10). -/
inductive Instr where
  | and (cond : Cond) (rd rn rm : Reg) (shift : BitVec 6)
  | eor (cond : Cond) (rd rn rm : Reg) (shift : BitVec 6)
  | sub (cond : Cond) (rd rn rm : Reg) (shift : BitVec 6)
  | add (cond : Cond) (rd rn rm : Reg) (shift : BitVec 6)
  | orr (cond : Cond) (rd rn rm : Reg) (shift : BitVec 6)
  | addi (cond : Cond) (rd rn : Reg) (imm : Word)
  | subi (cond : Cond) (rd rn : Reg) (imm : Word)
  | andi (cond : Cond) (rd rn : Reg) (imm : Word)
  | orri (cond : Cond) (rd rn : Reg) (imm : Word)
  | eori (cond : Cond) (rd rn : Reg) (imm : Word)
  | sturOffset (cond : Cond) (rt rn : Reg) (imm : Word)
  | sturPreIndex (cond : Cond) (rt rn : Reg) (imm : Word)
  | sturPostIndex (cond : Cond) (rt rn : Reg) (imm : Word)
  | ldurOffset (cond : Cond) (rt rn : Reg) (imm : Word)
  | ldurPreIndex (cond : Cond) (rt rn : Reg) (imm : Word)
  | ldurPostIndex (cond : Cond) (rt rn : Reg) (imm : Word)
  | b (cond : Cond) (imm : Word)
  | bl (cond : Cond) (imm : Word)
  | br (cond : Cond) (rn : Reg)
  | blr (cond : Cond) (rn : Reg)
  | ret (cond : Cond) (rn : Reg)
  | cbz (cond : Cond) (rt : Reg) (imm : Word)
  | cbnz (cond : Cond) (rt : Reg) (imm : Word)
deriving DecidableEq, Repr

namespace Instr

/-- The condition field of the record (10_state R26), the input of the gate (40_execution_cycle R106). -/
def cond : Instr → Cond
  | .and c .. => c | .eor c .. => c | .sub c .. => c | .add c .. => c | .orr c .. => c
  | .addi c .. => c | .subi c .. => c | .andi c .. => c | .orri c .. => c | .eori c .. => c
  | .sturOffset c .. => c | .sturPreIndex c .. => c | .sturPostIndex c .. => c
  | .ldurOffset c .. => c | .ldurPreIndex c .. => c | .ldurPostIndex c .. => c
  | .b c _ => c | .bl c _ => c | .br c _ => c | .blr c _ => c | .ret c _ => c
  | .cbz c .. => c | .cbnz c .. => c

/-- The opcode field of the record (10_state R26). -/
def opcode : Instr → Opcode
  | .and .. => .and | .eor .. => .eor | .sub .. => .sub | .add .. => .add | .orr .. => .orr
  | .addi .. => .addi | .subi .. => .subi | .andi .. => .andi | .orri .. => .orri | .eori .. => .eori
  | .sturOffset .. => .stur | .sturPreIndex .. => .stur | .sturPostIndex .. => .stur
  | .ldurOffset .. => .ldur | .ldurPreIndex .. => .ldur | .ldurPostIndex .. => .ldur
  | .b .. => .b | .bl .. => .bl | .br .. => .br | .blr .. => .blr | .ret .. => .ret
  | .cbz .. => .cbz | .cbnz .. => .cbnz

/-- The Instruction record of an instruction, the fields its opcode does not use at their defaults
(30_encoding R81; rt is carried in rd, 10_state R26; writeback exactly with the indexed modes,
30_encoding R88). -/
def toRecord : Instr → Record
  | .and c rd rn rm sh => { opcode := .and, cond := c, rd := rd, rn := rn, rm := rm, shift := sh }
  | .eor c rd rn rm sh => { opcode := .eor, cond := c, rd := rd, rn := rn, rm := rm, shift := sh }
  | .sub c rd rn rm sh => { opcode := .sub, cond := c, rd := rd, rn := rn, rm := rm, shift := sh }
  | .add c rd rn rm sh => { opcode := .add, cond := c, rd := rd, rn := rn, rm := rm, shift := sh }
  | .orr c rd rn rm sh => { opcode := .orr, cond := c, rd := rd, rn := rn, rm := rm, shift := sh }
  | .addi c rd rn imm => { opcode := .addi, cond := c, rd := rd, rn := rn, imm := imm }
  | .subi c rd rn imm => { opcode := .subi, cond := c, rd := rd, rn := rn, imm := imm }
  | .andi c rd rn imm => { opcode := .andi, cond := c, rd := rd, rn := rn, imm := imm }
  | .orri c rd rn imm => { opcode := .orri, cond := c, rd := rd, rn := rn, imm := imm }
  | .eori c rd rn imm => { opcode := .eori, cond := c, rd := rd, rn := rn, imm := imm }
  | .sturOffset c rt rn imm => { opcode := .stur, cond := c, rd := rt, rn := rn, imm := imm }
  | .sturPreIndex c rt rn imm =>
    { opcode := .stur, cond := c, rd := rt, rn := rn, imm := imm, mode := .preIndex, writeback := true }
  | .sturPostIndex c rt rn imm =>
    { opcode := .stur, cond := c, rd := rt, rn := rn, imm := imm, mode := .postIndex, writeback := true }
  | .ldurOffset c rt rn imm => { opcode := .ldur, cond := c, rd := rt, rn := rn, imm := imm }
  | .ldurPreIndex c rt rn imm =>
    { opcode := .ldur, cond := c, rd := rt, rn := rn, imm := imm, mode := .preIndex, writeback := true }
  | .ldurPostIndex c rt rn imm =>
    { opcode := .ldur, cond := c, rd := rt, rn := rn, imm := imm, mode := .postIndex, writeback := true }
  | .b c imm => { opcode := .b, cond := c, imm := imm }
  | .bl c imm => { opcode := .bl, cond := c, imm := imm }
  | .br c rn => { opcode := .br, cond := c, rn := rn }
  | .blr c rn => { opcode := .blr, cond := c, rn := rn }
  | .ret c rn => { opcode := .ret, cond := c, rn := rn }
  | .cbz c rt imm => { opcode := .cbz, cond := c, rd := rt, imm := imm }
  | .cbnz c rt imm => { opcode := .cbnz, cond := c, rd := rt, imm := imm }

end Instr

end Sys2Proof
end

