-- ==== Sys2Proof/WellFormed.lean ====
section
/-! DEFINITION. Which instructions a word can encode: the ranges of 30_encoding R94 and R96. -/

namespace Sys2Proof

/-- A shift amount that fits the two-bit field (30_encoding R84). -/
def encodableShift (shift : BitVec 6) : Bool := decide (shift.toNat ≤ 3)

/-- The immediate of the immediate class: -2048 to +2047 (30_encoding R83). -/
def encodableImm12 (imm : Word) : Bool := decide (-2048 ≤ imm.toInt ∧ imm.toInt ≤ 2047)

/-- The offset of the load/store class: -32768 to +32767 bytes (30_encoding R85). -/
def encodableImm16 (imm : Word) : Bool := decide (-32768 ≤ imm.toInt ∧ imm.toInt ≤ 32767)

/-- The offset of B and BL: a multiple of 4 from -2^27 to 2^27 - 4 bytes (30_encoding R86). -/
def encodableImm26 (imm : Word) : Bool :=
  decide (-134217728 ≤ imm.toInt ∧ imm.toInt ≤ 134217724 ∧ imm.toInt % 4 = 0)

/-- The offset of CBZ and CBNZ: a multiple of 4 from -2^20 to 2^20 - 4 bytes (30_encoding R86). -/
def encodableImm19 (imm : Word) : Bool :=
  decide (-1048576 ≤ imm.toInt ∧ imm.toInt ≤ 1048572 ∧ imm.toInt % 4 = 0)

/-- Whether some word encodes the instruction on a machine whose DECODE_EORI is `decodeEori`: the
condition is AL (30_encoding R87), the operands are in the ranges of R94, RET does not name X0 (R96),
and EORI has words only under DECODE_EORI (R93). -/
def Instr.wf (decodeEori : Bool) : Instr → Bool
  | .and c _ _ _ sh | .eor c _ _ _ sh | .sub c _ _ _ sh | .add c _ _ _ sh | .orr c _ _ _ sh =>
    c == .al && encodableShift sh
  | .addi c _ _ imm | .subi c _ _ imm | .andi c _ _ imm | .orri c _ _ imm => c == .al && encodableImm12 imm
  | .eori c _ _ imm => c == .al && encodableImm12 imm && decodeEori
  | .sturOffset c _ _ imm | .sturPreIndex c _ _ imm | .sturPostIndex c _ _ imm
  | .ldurOffset c _ _ imm | .ldurPreIndex c _ _ imm | .ldurPostIndex c _ _ imm =>
    c == .al && encodableImm16 imm
  | .b c imm | .bl c imm => c == .al && encodableImm26 imm
  | .br c _ | .blr c _ => c == .al
  | .ret c rn => c == .al && rn != 0
  | .cbz c _ imm | .cbnz c _ imm => c == .al && encodableImm19 imm

end Sys2Proof
end

