-- ==== Sys2Proof/Decode.lean ====
section
/-! DEFINITION. The decoder of 30_encoding R81, total on any bytes and rejecting by name, and after it
the encoder of 30_encoding R75 to R80. The bit positions and code values are the spec's own decisions:
UNVERIFIED against the source, unsafe for claims about the original software (log 14). -/

namespace Sys2Proof

/-- Why bytes are no instruction. The first five are the clauses (a) to (e) of 30_encoding R90 and all
mean opcode INVALID; the machine does not tell them apart (DESIGN CHOICE, safe, log 20). -/
inductive Undecoded where
  /-- R90 (a): the class field is 000, 001, 011 or 111. -/
  | noClass
  /-- R90 (b): register class, unused selector or a reserved bit set. -/
  | registerClass
  /-- R90 (c): immediate class, unused selector (EORI's without DECODE_EORI) or a reserved bit set. -/
  | immediateClass
  /-- R90 (d): load/store class, mode code 11. -/
  | loadStoreClass
  /-- R90 (e): branch class, selector 111 or a reserved bit set. -/
  | branchClass
  /-- Fewer than four bytes: no word to decode (30_encoding R70). Never raised by a step. -/
  | truncated
deriving DecidableEq, Repr

/-- The class field w[28:26] (30_encoding R71). -/
def classOf (w : InstrWord) : BitVec 3 := w.extractLsb' 26 3

/-- The selector w[31:29] (30_encoding R72). -/
def selectorOf (w : InstrWord) : BitVec 3 := w.extractLsb' 29 3

/-- The register fields rd (and rt), rn and rm (30_encoding R74). -/
def rdOf (w : InstrWord) : Reg := w.extractLsb' 0 5
def rnOf (w : InstrWord) : Reg := w.extractLsb' 5 5
def rmOf (w : InstrWord) : Reg := w.extractLsb' 16 5

/-- The shift amount, the field sh itself (30_encoding R84). -/
def shiftOf (w : InstrWord) : BitVec 6 := (w.extractLsb' 22 2).setWidth 6

/-- The immediates, sign-extended and for the branches scaled by 4 (30_encoding R83, R85, R86). -/
def imm12Of (w : InstrWord) : Word := (w.extractLsb' 10 12).signExtend 64
def imm16Of (w : InstrWord) : Word := (w.extractLsb' 10 16).signExtend 64
def imm26Of (w : InstrWord) : Word := 4#64 * (w.extractLsb' 0 26).signExtend 64
def imm19Of (w : InstrWord) : Word := 4#64 * (w.extractLsb' 5 19).signExtend 64

/-- The register class (30_encoding R75, R81). -/
def decodeRegister (w : InstrWord) : Except Undecoded Instr :=
  if w.extractLsb' 24 2 ≠ 0#2 ∨ w.extractLsb' 21 1 ≠ 0#1 ∨ w.extractLsb' 10 6 ≠ 0#6 then
    .error .registerClass
  else if selectorOf w = 0#3 then .ok (.and .al (rdOf w) (rnOf w) (rmOf w) (shiftOf w))
  else if selectorOf w = 1#3 then .ok (.eor .al (rdOf w) (rnOf w) (rmOf w) (shiftOf w))
  else if selectorOf w = 2#3 then .ok (.sub .al (rdOf w) (rnOf w) (rmOf w) (shiftOf w))
  else if selectorOf w = 3#3 then .ok (.add .al (rdOf w) (rnOf w) (rmOf w) (shiftOf w))
  else if selectorOf w = 4#3 then .ok (.orr .al (rdOf w) (rnOf w) (rmOf w) (shiftOf w))
  else .error .registerClass

/-- The immediate class (30_encoding R76, R81, R93). -/
def decodeImmediate (decodeEori : Bool) (w : InstrWord) : Except Undecoded Instr :=
  if w.extractLsb' 22 4 ≠ 0#4 then .error .immediateClass
  else if selectorOf w = 0#3 then .ok (.addi .al (rdOf w) (rnOf w) (imm12Of w))
  else if selectorOf w = 1#3 then .ok (.subi .al (rdOf w) (rnOf w) (imm12Of w))
  else if selectorOf w = 2#3 then .ok (.andi .al (rdOf w) (rnOf w) (imm12Of w))
  else if selectorOf w = 3#3 then .ok (.orri .al (rdOf w) (rnOf w) (imm12Of w))
  else if selectorOf w = 4#3 ∧ decodeEori = true then .ok (.eori .al (rdOf w) (rnOf w) (imm12Of w))
  else .error .immediateClass

/-- The load/store class: the load bit w[31] and the mode w[30:29] make the selector (30_encoding R77). -/
def decodeLoadStore (w : InstrWord) : Except Undecoded Instr :=
  if selectorOf w = 0b000#3 then .ok (.sturOffset .al (rdOf w) (rnOf w) (imm16Of w))
  else if selectorOf w = 0b001#3 then .ok (.sturPreIndex .al (rdOf w) (rnOf w) (imm16Of w))
  else if selectorOf w = 0b010#3 then .ok (.sturPostIndex .al (rdOf w) (rnOf w) (imm16Of w))
  else if selectorOf w = 0b100#3 then .ok (.ldurOffset .al (rdOf w) (rnOf w) (imm16Of w))
  else if selectorOf w = 0b101#3 then .ok (.ldurPreIndex .al (rdOf w) (rnOf w) (imm16Of w))
  else if selectorOf w = 0b110#3 then .ok (.ldurPostIndex .al (rdOf w) (rnOf w) (imm16Of w))
  else .error .loadStoreClass

/-- The target register of RET: field 0 means X30, any other field names itself (30_encoding R88). -/
def retTarget (field : Reg) : Reg := if field = 0#5 then linkReg else field

/-- The branch class (30_encoding R78, R79, R80, R81). -/
def decodeBranch (w : InstrWord) : Except Undecoded Instr :=
  if selectorOf w = 0#3 then .ok (.b .al (imm26Of w))
  else if selectorOf w = 1#3 then .ok (.bl .al (imm26Of w))
  else if selectorOf w = 2#3 ∧ w.extractLsb' 10 16 = 0#16 ∧ w.extractLsb' 0 5 = 0#5 then
    .ok (.br .al (rnOf w))
  else if selectorOf w = 3#3 ∧ w.extractLsb' 10 16 = 0#16 ∧ w.extractLsb' 0 5 = 0#5 then
    .ok (.blr .al (rnOf w))
  else if selectorOf w = 4#3 ∧ w.extractLsb' 10 16 = 0#16 ∧ w.extractLsb' 0 5 = 0#5 then
    .ok (.ret .al (retTarget (rnOf w)))
  else if selectorOf w = 5#3 ∧ w.extractLsb' 24 2 = 0#2 then .ok (.cbz .al (rdOf w) (imm19Of w))
  else if selectorOf w = 6#3 ∧ w.extractLsb' 24 2 = 0#2 then .ok (.cbnz .al (rdOf w) (imm19Of w))
  else .error .branchClass

/-- The decoder, dispatching on the class field (30_encoding R71, R81). -/
def decode (decodeEori : Bool) (w : InstrWord) : Except Undecoded Instr :=
  if classOf w = 0b010#3 then decodeRegister w
  else if classOf w = 0b100#3 then decodeImmediate decodeEori w
  else if classOf w = 0b110#3 then decodeLoadStore w
  else if classOf w = 0b101#3 then decodeBranch w
  else .error .noClass

/-- The decoder's output as the Instruction record of 10_state R26: the record of the instruction, or
the INVALID record (30_encoding R81). -/
def decodeRecord (decodeEori : Bool) (w : InstrWord) : Record :=
  match decode decodeEori w with
  | .ok i => i.toRecord
  | .error _ => Record.ofInvalid

/-- Four bytes as an instruction word, the first byte the least significant (20_memory R43, R44). -/
def wordOfBytes (b0 b1 b2 b3 : Byte) : InstrWord := b3 ++ b2 ++ b1 ++ b0

/-- The four bytes of an instruction word in memory order (20_memory R44). -/
def bytesOfWord (w : InstrWord) : List Byte :=
  [w.extractLsb' 0 8, w.extractLsb' 8 8, w.extractLsb' 16 8, w.extractLsb' 24 8]

/-- The decoder on bytes in memory order: the instruction and the bytes after it. -/
def decodeBytes (decodeEori : Bool) : List Byte → Except Undecoded (Instr × List Byte)
  | b0 :: b1 :: b2 :: b3 :: rest =>
    match decode decodeEori (wordOfBytes b0 b1 b2 b3) with
    | .ok i => .ok (i, rest)
    | .error u => .error u
  | _ => .error .truncated

/-- The instruction word given by the low `nbits` bits of `w`, the bits above them zero. -/
def tableWord (nbits w : Nat) : InstrWord := BitVec.ofNat 32 (w % 2 ^ nbits)

/-- The instruction the decoder reads from an opcode-table word, laid out in bytes as the memory holds
it. The table lists EORI's row, which exists under DECODE_EORI, so the table is read with that
parameter true (30_encoding R93; DESIGN CHOICE, unsafe, log 3). -/
def decodeTableWord (nbits w : Nat) : Option Instr :=
  match decodeBytes true (bytesOfWord (tableWord nbits w)) with
  | .ok (i, _) => some i
  | .error _ => none

/-- R-format (30_encoding R75). -/
def encodeR (opc : BitVec 3) (rd rn rm : Reg) (shift : BitVec 6) : InstrWord :=
  opc ++ 0b010#3 ++ 0#2 ++ shift.setWidth 2 ++ 0#1 ++ rm ++ 0#6 ++ rn ++ rd

/-- I-format (30_encoding R76). -/
def encodeI (opc : BitVec 3) (rd rn : Reg) (imm : Word) : InstrWord :=
  opc ++ 0b100#3 ++ 0#4 ++ imm.setWidth 12 ++ rn ++ rd

/-- D-format; the load bit and the mode make the three-bit code (30_encoding R77). -/
def encodeD (code : BitVec 3) (rt rn : Reg) (imm : Word) : InstrWord :=
  code ++ 0b110#3 ++ imm.setWidth 16 ++ rn ++ rt

/-- B-format: the byte offset divided by 4 (30_encoding R78, R94). -/
def encodeB (sel : BitVec 3) (imm : Word) : InstrWord := sel ++ 0b101#3 ++ imm.extractLsb' 2 26

/-- BR-format (30_encoding R79). -/
def encodeBR (sel : BitVec 3) (rn : Reg) : InstrWord := sel ++ 0b101#3 ++ 0#16 ++ rn ++ 0#5

/-- CB-format: the byte offset divided by 4 (30_encoding R80, R94). -/
def encodeCB (sel : BitVec 3) (rt : Reg) (imm : Word) : InstrWord :=
  sel ++ 0b101#3 ++ 0#2 ++ imm.extractLsb' 2 19 ++ rt

/-- The word of a well-formed instruction (30_encoding R75 to R80, R94). RET X30 has two words, field 30
and field 0; the encoder writes field 30 (DESIGN CHOICE, safe, log 12). On an instruction that is not well-formed the
answer means nothing. -/
def encode : Instr → InstrWord
  | .and _ rd rn rm sh => encodeR 0#3 rd rn rm sh
  | .eor _ rd rn rm sh => encodeR 1#3 rd rn rm sh
  | .sub _ rd rn rm sh => encodeR 2#3 rd rn rm sh
  | .add _ rd rn rm sh => encodeR 3#3 rd rn rm sh
  | .orr _ rd rn rm sh => encodeR 4#3 rd rn rm sh
  | .addi _ rd rn imm => encodeI 0#3 rd rn imm
  | .subi _ rd rn imm => encodeI 1#3 rd rn imm
  | .andi _ rd rn imm => encodeI 2#3 rd rn imm
  | .orri _ rd rn imm => encodeI 3#3 rd rn imm
  | .eori _ rd rn imm => encodeI 4#3 rd rn imm
  | .sturOffset _ rt rn imm => encodeD 0b000#3 rt rn imm
  | .sturPreIndex _ rt rn imm => encodeD 0b001#3 rt rn imm
  | .sturPostIndex _ rt rn imm => encodeD 0b010#3 rt rn imm
  | .ldurOffset _ rt rn imm => encodeD 0b100#3 rt rn imm
  | .ldurPreIndex _ rt rn imm => encodeD 0b101#3 rt rn imm
  | .ldurPostIndex _ rt rn imm => encodeD 0b110#3 rt rn imm
  | .b _ imm => encodeB 0#3 imm
  | .bl _ imm => encodeB 1#3 imm
  | .br _ rn => encodeBR 2#3 rn
  | .blr _ rn => encodeBR 3#3 rn
  | .ret _ rn => encodeBR 4#3 rn
  | .cbz _ rt imm => encodeCB 5#3 rt imm
  | .cbnz _ rt imm => encodeCB 6#3 rt imm

/-- The mask of the instruction's row in the opcode map (30_encoding R89). -/
def Instr.rowMask : Instr → InstrWord
  | .and .. | .eor .. | .sub .. | .add .. | .orr .. => 0xFF20FC00#32
  | .addi .. | .subi .. | .andi .. | .orri .. | .eori .. => 0xFFC00000#32
  | .sturOffset .. | .sturPreIndex .. | .sturPostIndex .. => 0xFC000000#32
  | .ldurOffset .. | .ldurPreIndex .. | .ldurPostIndex .. => 0xFC000000#32
  | .b .. | .bl .. => 0xFC000000#32
  | .br .. | .blr .. | .ret .. => 0xFFFFFC1F#32
  | .cbz .. | .cbnz .. => 0xFF000000#32

/-- The match of the instruction's row in the opcode map (30_encoding R89). -/
def Instr.rowMatch : Instr → InstrWord
  | .and .. => 0x08000000#32
  | .eor .. => 0x28000000#32
  | .sub .. => 0x48000000#32
  | .add .. => 0x68000000#32
  | .orr .. => 0x88000000#32
  | .addi .. => 0x10000000#32
  | .subi .. => 0x30000000#32
  | .andi .. => 0x50000000#32
  | .orri .. => 0x70000000#32
  | .eori .. => 0x90000000#32
  | .sturOffset .. => 0x18000000#32
  | .sturPreIndex .. => 0x38000000#32
  | .sturPostIndex .. => 0x58000000#32
  | .ldurOffset .. => 0x98000000#32
  | .ldurPreIndex .. => 0xB8000000#32
  | .ldurPostIndex .. => 0xD8000000#32
  | .b .. => 0x14000000#32
  | .bl .. => 0x34000000#32
  | .br .. => 0x54000000#32
  | .blr .. => 0x74000000#32
  | .ret .. => 0x94000000#32
  | .cbz .. => 0xB4000000#32
  | .cbnz .. => 0xD4000000#32

/-- Whether a word is in EORI's row (30_encoding R89, R93). -/
def isEoriWord (w : InstrWord) : Bool := w &&& 0xFFC00000#32 == 0x90000000#32

end Sys2Proof
end

