-- ==== Sys2Proof/Machine/State.lean ====
section
/-! DEFINITION. The machine's state (10_state R10), the outcomes of a step (40_execution_cycle R100), the
faults, the refusals and the state after reset. -/

namespace Sys2Proof.Machine

/-- The four condition flags, four independent Booleans with no packed form (10_state R19, R21). -/
structure Flags where
  n : Bool
  z : Bool
  c : Bool
  v : Bool
deriving DecidableEq, Repr

/-- The fault record (60_exceptions R230 to R232). A fault is TAKEN: `State.raise` answers a next state
with `running` false and this record as the step's result, so no step answers `Host.Outcome.fault`
(DESIGN CHOICE, safe, log 5). -/
inductive Fault where
  /-- Raised by the fetch, by LDUR and by STUR when the access does not lie inside the memory: the
  address of the instruction, the address of the rejected access and its width in bytes (60_exceptions
  R231). Safe: it is the spec's own behaviour. -/
  | outOfBounds (instruction access : Word) (width : Nat)
  /-- Raised by every INVALID word, and by an INVALID record at the execute-stage interface: the address
  of the instruction (60_exceptions R232). Safe: it is the spec's own behaviour. -/
  | invalidInstruction (instruction : Word)
deriving DecidableEq, Repr

/-- Why the model gives no step. -/
inductive Refusal where
  /-- Raised by an arm of `exec` for an instruction with no meaning. No arm raises it. Safe. -/
  | notModelled (mnemonic : String)
  /-- Raised at the execute-stage interface for a record with addressing mode LITERAL, which the spec says
  a model must refuse (43_load_store R175). No word decodes to one. Safe. -/
  | literalMode
  /-- Raised at the execute-stage interface for a record whose writeback flag disagrees with its mode
  (43_load_store R175). No word decodes to one. Safe. -/
  | writebackMismatch
deriving DecidableEq, Repr

/-- The four outcomes of a step, the third with its fault record (40_execution_cycle R100). -/
inductive StepResult where
  | continued
  | breakpointHit
  | haltedOnFault (fault : Fault)
  | alreadyHalted
deriving DecidableEq, Repr

/-- The architectural state of 10_state R10, with two fields of the model's own, `cfg` and `result`. -/
structure State where
  /-- The parameters MEM_SIZE, SP_RESET and DECODE_EORI (00_scope R5). The model's own field: the spec calls
  them parameters, not state; nothing changes them (DESIGN CHOICE, log 1). -/
  cfg : Config
  /-- X0 to X30 (10_state R11). The zero register holds nothing (10_state R12). -/
  x : Vector Word 31
  /-- The stack pointer, outside the indexed space (10_state R14). -/
  sp : Word
  /-- The program counter (10_state R16). -/
  pc : Word
  /-- N, Z, C, V (10_state R19). -/
  flags : Flags
  /-- Running (true) or Halted (false) (10_state R22). -/
  running : Bool
  /-- The breakpoint set, as its members in strictly rising order (10_state R23; DESIGN CHOICE,
  safe, log 7). -/
  breakpoints : List Word
  /-- The memory's bytes that are not 0, in strictly rising order of address; every other address below
  MEM_SIZE holds 0 (20_memory R40; DESIGN CHOICE, safe, log 6). -/
  mem : List Host.Cell
  /-- What the last step returned, none when no step was taken since construction. The model's own field:
  the spec returns it to the host; nothing in the machine reads it (DESIGN CHOICE, safe,
  log 4). -/
  result : Option StepResult
deriving DecidableEq, Repr

/-- The state `construct` and every `reset()` leave (10_state R29, 70_reset_and_hazards R260 to R262). -/
def State.construct (cfg : Config) : State where
  cfg := cfg
  x := Vector.replicate 31 0#64
  sp := cfg.spReset
  pc := 0#64
  flags := ⟨false, false, false, false⟩
  running := true
  breakpoints := []
  mem := []
  result := none

/-- The machine right after reset, with the reference parameters (DESIGN CHOICE, unsafe, logs 1, 2, 3). -/
def State.reset : State := State.construct Config.reference

end Sys2Proof.Machine
end

