-- ==== Sys2Proof/Machine/Flags.lean ====
section
/-! DEFINITION. The adder with flags (41_dp_register R130) and the condition evaluator
(40_execution_cycle R110). -/

namespace Sys2Proof.Machine

/-- `AddWithCarry(a, b, cin)`: the 64-bit sum and its four flags, from the exact unsigned and signed sums
(41_dp_register R130; UNVERIFIED against the source, log 15). -/
def addWithCarry (a b : Word) (cin : Bool) : Word × Flags :=
  let usum : Nat := a.toNat + b.toNat + cin.toNat
  let ssum : Int := a.toInt + b.toInt + cin.toNat
  let result : Word := BitVec.ofNat 64 usum
  (result,
    { n := result.msb
      z := result == 0#64
      c := decide (2 ^ 64 ≤ usum)
      v := decide (result.toInt ≠ ssum) })

/-- Addition a + b with its flags (41_dp_register R130, R135). -/
def addFlags (a b : Word) : Word × Flags := addWithCarry a b false

/-- Subtraction a - b with its flags: a plus NOT b plus 1, so C means no borrow (41_dp_register R130, R134). -/
def subFlags (a b : Word) : Word × Flags := addWithCarry a (~~~b) true

end Sys2Proof.Machine

namespace Sys2Proof

/-- `Cond(c)`: the condition evaluator, a pure function over the four flags (40_execution_cycle R110). -/
def Cond.holds (c : Cond) (f : Machine.Flags) : Bool :=
  match c with
  | .eq => f.z
  | .ne => !f.z
  | .cs => f.c
  | .cc => !f.c
  | .mi => f.n
  | .pl => !f.n
  | .vs => f.v
  | .vc => !f.v
  | .hi => f.c && !f.z
  | .ls => !f.c || f.z
  | .ge => f.n == f.v
  | .lt => f.n != f.v
  | .gt => (f.n == f.v) && !f.z
  | .le => (f.n != f.v) || f.z
  | .al => true
  | .nv => false

end Sys2Proof
end

