-- ==== Sys2Proof/Machine/Ops.lean ====
section
/-! DEFINITION. The named operations over registers, memory and the breakpoint set, taking a fault,
retiring, and the condition gate. -/

namespace Sys2Proof.Machine

/-! ### Memory: a canonical list of the non-zero cells -/

/-- The canonical form of a memory: addresses strictly rising, no cell equal to what an unlisted address
reads as (DESIGN CHOICE, safe, log 6). -/
abbrev Memory.wf (m : List Host.Cell) : Prop :=
  m.Pairwise (fun c d => c.1 < d.1) ∧ ∀ c ∈ m, c.2 ≠ 0#8

/-- What an address with no cell reads as: the reset contents of the memory (20_memory R40). -/
def Memory.unlisted : Byte := 0#8

/-- MEM[a] (20_memory R40). -/
def Memory.byte : List Host.Cell → Nat → Byte
  | [], _ => Memory.unlisted
  | (k, v) :: m, a => if k = a then v else Memory.byte m a

/-- A cell for `v` at `a` before `m`, or none where `v` is what an unlisted address reads as. -/
def Memory.cons (a : Nat) (v : Byte) (m : List Host.Cell) : List Host.Cell :=
  if v = Memory.unlisted then m else (a, v) :: m

/-- MEM[a] <- v, keeping the canonical form. -/
def Memory.setByte : List Host.Cell → Nat → Byte → List Host.Cell
  | [], a, v => Memory.cons a v []
  | (k, u) :: m, a, v =>
    if a < k then Memory.cons a v ((k, u) :: m)
    else if a = k then Memory.cons a v m
    else (k, u) :: Memory.setByte m a v

/-- The n bytes from address a upward. -/
def Memory.bytes (m : List Host.Cell) (a : Nat) : Nat → List Byte
  | 0 => []
  | n + 1 => Memory.byte m a :: Memory.bytes m (a + 1) n

/-- The bytes `bs` copied to a, a + 1, ... in order (20_memory R44, R52). -/
def Memory.setBytes (m : List Host.Cell) (a : Nat) : List Byte → List Host.Cell
  | [] => m
  | v :: bs => Memory.setBytes (Memory.setByte m a v) (a + 1) bs

/-- Bytes in memory order as a number, the first the least significant (20_memory R43, R44). -/
def leValue : List Byte → Nat
  | [] => 0
  | v :: bs => v.toNat + 2 ^ 8 * leValue bs

/-- The low 8·n bits of a value as n bytes in memory order (20_memory R44, R46). -/
def leBytes : (n : Nat) → (v : Nat) → List Byte
  | 0, _ => []
  | n + 1, v => BitVec.ofNat 8 v :: leBytes n (v / 2 ^ 8)

/-! ### The state's operations -/

namespace State

/-- `x[i]`: the value of Xi, and 0 for the zero register (10_state R12, 00_scope R7). -/
def reg (s : State) (r : Reg) : Word := if h : r.toNat < 31 then s.x[r.toNat] else 0#64

/-- `x[i] <- v`: Xi becomes v, and a write to the zero register is discarded (10_state R12, 00_scope R7). -/
def setReg (s : State) (r : Reg) (v : Word) : State :=
  if h : r.toNat < 31 then { s with x := s.x.set r.toNat v } else s

/-- `NZCV <- f` (00_scope R7). -/
def setFlags (s : State) (f : Flags) : State := { s with flags := f }

/-- MEM[a], as the state holds it. -/
def byte (s : State) (a : Nat) : Byte := Memory.byte s.mem a

/-- The bounds check: a + n ≤ MEM_SIZE, the sum taken as natural numbers (20_memory R47). No access needs
any alignment (20_memory R50). -/
def inBounds (s : State) (a : Word) (n : Nat) : Bool := decide (a.toNat + n ≤ s.cfg.memSize)

/-- `MemRead(a, n)`: the little-endian value of n bytes, or none for OutOfBounds (20_memory R44, R47, R48). -/
def memRead (s : State) (a : Word) (n : Nat) : Option Nat :=
  if s.inBounds a n then some (leValue (Memory.bytes s.mem a.toNat n)) else none

/-- Copy bytes to an address, all or nothing; none for OutOfBounds (20_memory R47, R49, R52). -/
def memLoad (s : State) (a : Word) (bs : List Byte) : Option State :=
  if s.inBounds a bs.length then some { s with mem := Memory.setBytes s.mem a.toNat bs } else none

/-- `MemWrite(a, n, v)`: the low 8·n bits of v, little-endian, all or nothing; none for OutOfBounds
(20_memory R44, R47, R49). -/
def memWrite (s : State) (a : Word) (n : Nat) (v : Nat) : Option State := s.memLoad a (leBytes n v)

/-- End a step with outcome continued and the pc at `target` (40_execution_cycle R107, 10_state R17). -/
def retire (s : State) (target : Word) : State := { s with pc := target, result := some .continued }

/-- The address of the instruction after this one, modulo 2^64 (10_state R17, R18). -/
def nextPc (s : State) : Word := s.pc + 4#64

/-- End a step with an outcome that changes no state of the machine: breakpoint-hit or already-halted
(40_execution_cycle R101, R102). -/
def report (s : State) (r : StepResult) : State := { s with result := some r }

/-- TAKING A FAULT: running becomes false, the outcome is halted-on-fault with the record, and nothing
else changes; the pc stays on the instruction (60_exceptions R241, 40_execution_cycle R108). There is no
return from a fault: only construction and reset() set running again (60_exceptions R244). -/
def raise (s : State) (f : Fault) : State := { s with running := false, result := some (.haltedOnFault f) }

/-- The fetch of a step: `MemRead(pc, 4)`, or none for OutOfBounds (40_execution_cycle R103). -/
def fetch (s : State) : Option InstrWord := (s.memRead s.pc 4).map (BitVec.ofNat 32)

end State

/-- The condition gate (40_execution_cycle R106): `body` when the condition holds; when it does not, only
the pc advances by 4 and the instruction retires. -/
def gate (c : Cond) (s : State) (body : State) : Host.Outcome State Fault Refusal :=
  if c.holds s.flags then .next body else .next (s.retire s.nextPc)

/-! ### The breakpoint set -/

/-- Add an address to a strictly rising list of addresses (10_state R23). -/
def insertAddress (a : Word) : List Word → List Word
  | [] => [a]
  | b :: bs => if a.toNat < b.toNat then a :: b :: bs else if a = b then b :: bs else b :: insertAddress a bs

/-- Remove an address from a list of addresses (10_state R23). -/
def removeAddress (a : Word) (bs : List Word) : List Word := bs.filter (fun b => b != a)

end Sys2Proof.Machine
end

