-- ==== Sys2Proof/Machine/Operands.lean ====
section
/-! DEFINITION. The operand forms: the shifted second register (41_dp_register R131) and the effective
address with its writeback (43_load_store R170), and the result forms over them. -/

namespace Sys2Proof.Machine

/-- The three addressing modes that have a meaning (43_load_store R170, R175). -/
inductive Indexing where
  | offset | preIndex | postIndex
deriving DecidableEq, Repr

/-- The effective address: base + imm, and for POST_INDEX the base itself (43_load_store R170;
UNVERIFIED against the source, log 16). -/
def effectiveAddress (m : Indexing) (base imm : Word) : Word :=
  match m with
  | .offset => base + imm
  | .preIndex => base + imm
  | .postIndex => base

/-- The value written back to the base register, none for OFFSET (43_load_store R170). -/
def writebackValue (m : Indexing) (base imm : Word) : Option Word :=
  match m with
  | .offset => none
  | .preIndex => some (base + imm)
  | .postIndex => some (base + imm)

namespace State

/-- The second operand of the register class: x[rm] shifted left, bits past bit 63 lost (41_dp_register
R131). -/
def shiftedReg (s : State) (rm : Reg) (shift : BitVec 6) : Word := s.reg rm <<< shift.toNat

/-- Write the base register where there is a value to write back (43_load_store R171, R172). -/
def writeback (s : State) (rn : Reg) (wb : Option Word) : State :=
  match wb with
  | none => s
  | some v => s.setReg rn v

/-- Retire with a result register written: the logical instructions (41_dp_register R131). -/
def finishLogical (s : State) (rd : Reg) (v : Word) : State := (s.setReg rd v).retire s.nextPc

/-- Retire with a result register and all four flags written: the add and subtract family
(41_dp_register R134, R135, 10_state R20). -/
def finishArith (s : State) (rd : Reg) (r : Word × Flags) : State :=
  ((s.setReg rd r.1).setFlags r.2).retire s.nextPc

/-- LDUR in one of its modes: read, write rt, then write back the base (43_load_store R171). -/
def load (s : State) (m : Indexing) (rt rn : Reg) (imm : Word) : State :=
  let ea := effectiveAddress m (s.reg rn) imm
  match s.memRead ea 8 with
  | none => s.raise (.outOfBounds s.pc ea 8)
  | some v =>
    ((s.setReg rt (BitVec.ofNat 64 v)).writeback rn (writebackValue m (s.reg rn) imm)).retire s.nextPc

/-- STUR in one of its modes: store the value rt holds, then write back the base (43_load_store R172). -/
def store (s : State) (m : Indexing) (rt rn : Reg) (imm : Word) : State :=
  let ea := effectiveAddress m (s.reg rn) imm
  match s.memWrite ea 8 (s.reg rt).toNat with
  | none => s.raise (.outOfBounds s.pc ea 8)
  | some t => (t.writeback rn (writebackValue m (s.reg rn) imm)).retire s.nextPc

/-- The target of a relative branch, modulo 2^64 (44_branch R190). -/
def branchTarget (s : State) (imm : Word) : Word := s.pc + imm

/-- Write the return address into X30 (44_branch R190, R192, R194). -/
def link (s : State) : State := s.setReg linkReg s.nextPc

end State

end Sys2Proof.Machine
end

