-- ==== Sys2Proof/Machine/Branch.lean ====
section
/-! DEFINITION. The branch class: B, BL, BR, BLR, RET, CBZ, CBNZ (44_branch R191 to R197). -/

namespace Sys2Proof.Machine

/-- B (44_branch R191). -/
def execB (cond : Cond) (imm : Word) (s : State) : Host.Outcome State Fault Refusal :=
  gate cond s (s.retire (s.branchTarget imm))

/-- BL: both right-hand sides use the pc of the BL itself (44_branch R192). -/
def execBl (cond : Cond) (imm : Word) (s : State) : Host.Outcome State Fault Refusal :=
  gate cond s (s.link.retire (s.branchTarget imm))

/-- BR (44_branch R193). -/
def execBr (cond : Cond) (rn : Reg) (s : State) : Host.Outcome State Fault Refusal :=
  gate cond s (s.retire (s.reg rn))

/-- BLR: the target is read before X30 is written (44_branch R194). -/
def execBlr (cond : Cond) (rn : Reg) (s : State) : Host.Outcome State Fault Refusal :=
  gate cond s (s.link.retire (s.reg rn))

/-- RET: the decoder has already put X30 in place of field 0 (44_branch R195). A record
with rn = 0, which no word decodes to, branches to X0 (DEDUCED, log 11). -/
def execRet (cond : Cond) (rn : Reg) (s : State) : Host.Outcome State Fault Refusal :=
  gate cond s (s.retire (s.reg rn))

/-- CBZ (44_branch R196). -/
def execCbz (cond : Cond) (rt : Reg) (imm : Word) (s : State) : Host.Outcome State Fault Refusal :=
  gate cond s (s.retire (if s.reg rt = 0#64 then s.branchTarget imm else s.nextPc))

/-- CBNZ (44_branch R197). -/
def execCbnz (cond : Cond) (rt : Reg) (imm : Word) (s : State) : Host.Outcome State Fault Refusal :=
  gate cond s (s.retire (if s.reg rt ≠ 0#64 then s.branchTarget imm else s.nextPc))

end Sys2Proof.Machine
end

