-- ==== Sys2Proof/Machine/DataImmediate.lean ====
section
/-! DEFINITION. The immediate class: ADDI, SUBI, ANDI, ORRI, EORI (42_dp_immediate R151 to R155). -/

namespace Sys2Proof.Machine

/-- ADDI (42_dp_immediate R151). -/
def execAddi (cond : Cond) (rd rn : Reg) (imm : Word) (s : State) : Host.Outcome State Fault Refusal :=
  gate cond s (s.finishArith rd (addFlags (s.reg rn) imm))

/-- SUBI (42_dp_immediate R152). -/
def execSubi (cond : Cond) (rd rn : Reg) (imm : Word) (s : State) : Host.Outcome State Fault Refusal :=
  gate cond s (s.finishArith rd (subFlags (s.reg rn) imm))

/-- ANDI (42_dp_immediate R153). -/
def execAndi (cond : Cond) (rd rn : Reg) (imm : Word) (s : State) : Host.Outcome State Fault Refusal :=
  gate cond s (s.finishLogical rd (s.reg rn &&& imm))

/-- ORRI (42_dp_immediate R154). -/
def execOrri (cond : Cond) (rd rn : Reg) (imm : Word) (s : State) : Host.Outcome State Fault Refusal :=
  gate cond s (s.finishLogical rd (s.reg rn ||| imm))

/-- EORI (42_dp_immediate R155). DECODE_EORI concerns the decoder only. -/
def execEori (cond : Cond) (rd rn : Reg) (imm : Word) (s : State) : Host.Outcome State Fault Refusal :=
  gate cond s (s.finishLogical rd (s.reg rn ^^^ imm))

end Sys2Proof.Machine
end

