-- ==== Sys2Proof/Machine/DataRegister.lean ====
section
/-! DEFINITION. The register class: AND, EOR, SUB, ADD, ORR (41_dp_register R132 to R136). -/

namespace Sys2Proof.Machine

/-- AND (41_dp_register R132). -/
def execAnd (cond : Cond) (rd rn rm : Reg) (shift : BitVec 6) (s : State) :
    Host.Outcome State Fault Refusal :=
  gate cond s (s.finishLogical rd (s.reg rn &&& s.shiftedReg rm shift))

/-- EOR (41_dp_register R133). -/
def execEor (cond : Cond) (rd rn rm : Reg) (shift : BitVec 6) (s : State) :
    Host.Outcome State Fault Refusal :=
  gate cond s (s.finishLogical rd (s.reg rn ^^^ s.shiftedReg rm shift))

/-- SUB (41_dp_register R134). -/
def execSub (cond : Cond) (rd rn rm : Reg) (shift : BitVec 6) (s : State) :
    Host.Outcome State Fault Refusal :=
  gate cond s (s.finishArith rd (subFlags (s.reg rn) (s.shiftedReg rm shift)))

/-- ADD (41_dp_register R135). -/
def execAdd (cond : Cond) (rd rn rm : Reg) (shift : BitVec 6) (s : State) :
    Host.Outcome State Fault Refusal :=
  gate cond s (s.finishArith rd (addFlags (s.reg rn) (s.shiftedReg rm shift)))

/-- ORR (41_dp_register R136). -/
def execOrr (cond : Cond) (rd rn rm : Reg) (shift : BitVec 6) (s : State) :
    Host.Outcome State Fault Refusal :=
  gate cond s (s.finishLogical rd (s.reg rn ||| s.shiftedReg rm shift))

end Sys2Proof.Machine
end

