-- ==== Sys2Proof/Machine/LoadStore.lean ====
section
/-! DEFINITION. The load/store class: STUR and LDUR in their three modes (43_load_store R171, R172). -/

namespace Sys2Proof.Machine

/-- STUR, mode OFFSET (43_load_store R172). -/
def execSturOffset (cond : Cond) (rt rn : Reg) (imm : Word) (s : State) :
    Host.Outcome State Fault Refusal :=
  gate cond s (s.store .offset rt rn imm)

/-- STUR, mode PRE_INDEX (43_load_store R172). -/
def execSturPreIndex (cond : Cond) (rt rn : Reg) (imm : Word) (s : State) :
    Host.Outcome State Fault Refusal :=
  gate cond s (s.store .preIndex rt rn imm)

/-- STUR, mode POST_INDEX (43_load_store R172). -/
def execSturPostIndex (cond : Cond) (rt rn : Reg) (imm : Word) (s : State) :
    Host.Outcome State Fault Refusal :=
  gate cond s (s.store .postIndex rt rn imm)

/-- LDUR, mode OFFSET (43_load_store R171). -/
def execLdurOffset (cond : Cond) (rt rn : Reg) (imm : Word) (s : State) :
    Host.Outcome State Fault Refusal :=
  gate cond s (s.load .offset rt rn imm)

/-- LDUR, mode PRE_INDEX (43_load_store R171). -/
def execLdurPreIndex (cond : Cond) (rt rn : Reg) (imm : Word) (s : State) :
    Host.Outcome State Fault Refusal :=
  gate cond s (s.load .preIndex rt rn imm)

/-- LDUR, mode POST_INDEX (43_load_store R171). -/
def execLdurPostIndex (cond : Cond) (rt rn : Reg) (imm : Word) (s : State) :
    Host.Outcome State Fault Refusal :=
  gate cond s (s.load .postIndex rt rn imm)

end Sys2Proof.Machine
end

