-- ==== Sys2Proof/Machine/Dispatch.lean ====
section
/-! DEFINITION. The dispatch: one arm per constructor of Instr (40_execution_cycle R107). -/

namespace Sys2Proof.Machine

/-- Stages 5 and 6 of a step for a decoded instruction: the condition gate and the instruction's own rule
(40_execution_cycle R106, R107). -/
def exec (i : Instr) (s : State) : Host.Outcome State Fault Refusal :=
  match i with
  | .and cond rd rn rm shift => Sys2Proof.Machine.execAnd cond rd rn rm shift s
  | .eor cond rd rn rm shift => Sys2Proof.Machine.execEor cond rd rn rm shift s
  | .sub cond rd rn rm shift => Sys2Proof.Machine.execSub cond rd rn rm shift s
  | .add cond rd rn rm shift => Sys2Proof.Machine.execAdd cond rd rn rm shift s
  | .orr cond rd rn rm shift => Sys2Proof.Machine.execOrr cond rd rn rm shift s
  | .addi cond rd rn imm => Sys2Proof.Machine.execAddi cond rd rn imm s
  | .subi cond rd rn imm => Sys2Proof.Machine.execSubi cond rd rn imm s
  | .andi cond rd rn imm => Sys2Proof.Machine.execAndi cond rd rn imm s
  | .orri cond rd rn imm => Sys2Proof.Machine.execOrri cond rd rn imm s
  | .eori cond rd rn imm => Sys2Proof.Machine.execEori cond rd rn imm s
  | .sturOffset cond rt rn imm => Sys2Proof.Machine.execSturOffset cond rt rn imm s
  | .sturPreIndex cond rt rn imm => Sys2Proof.Machine.execSturPreIndex cond rt rn imm s
  | .sturPostIndex cond rt rn imm => Sys2Proof.Machine.execSturPostIndex cond rt rn imm s
  | .ldurOffset cond rt rn imm => Sys2Proof.Machine.execLdurOffset cond rt rn imm s
  | .ldurPreIndex cond rt rn imm => Sys2Proof.Machine.execLdurPreIndex cond rt rn imm s
  | .ldurPostIndex cond rt rn imm => Sys2Proof.Machine.execLdurPostIndex cond rt rn imm s
  | .b cond imm => Sys2Proof.Machine.execB cond imm s
  | .bl cond imm => Sys2Proof.Machine.execBl cond imm s
  | .br cond rn => Sys2Proof.Machine.execBr cond rn s
  | .blr cond rn => Sys2Proof.Machine.execBlr cond rn s
  | .ret cond rn => Sys2Proof.Machine.execRet cond rn s
  | .cbz cond rt imm => Sys2Proof.Machine.execCbz cond rt imm s
  | .cbnz cond rt imm => Sys2Proof.Machine.execCbnz cond rt imm s

end Sys2Proof.Machine
end

