-- ==== Sys2Proof/Machine/Step.lean ====
section
/-! DEFINITION. One step of the Executor (40_execution_cycle R109), and the placing of an instruction where
the next step fetches it. -/

namespace Sys2Proof.Machine

/-- The step, stage by stage (40_execution_cycle R101 to R107, R109): run check, breakpoint check, fetch,
decode, INVALID check, then the gate and the instruction's rule. -/
def step (s : State) : Host.Outcome State Fault Refusal :=
  if s.running = false then .next (s.report .alreadyHalted)
  else if s.pc ∈ s.breakpoints then .next (s.report .breakpointHit)
  else
    match s.fetch with
    | none => .next (s.raise (.outOfBounds s.pc s.pc 4))
    | some w =>
      match decode s.cfg.decodeEori w with
      | .error _ => .next (s.raise (.invalidInstruction s.pc))
      | .ok i => exec i s

/-- The state with an opcode-table word stored at its pc, ready for the next step to run it: Running, no
breakpoint at the pc and, for a word of EORI's row only, DECODE_EORI true, the parameter that row needs
(30_encoding R93; DESIGN CHOICE, logs 3 and 13). Where the four bytes do not lie inside
the memory nothing is stored. -/
def State.withFetchWord (s : State) (nbits w : Nat) : State :=
  let word := tableWord nbits w
  let t : State :=
    { s with
      cfg := { s.cfg with decodeEori := s.cfg.decodeEori || isEoriWord word }
      running := true
      breakpoints := removeAddress s.pc s.breakpoints }
  (t.memLoad s.pc (bytesOfWord word)).getD t

end Sys2Proof.Machine
end

