-- ==== Sys2Proof/Machine/ExecuteStage.lean ====
section
/-! DEFINITION. The execute-stage interface: from an Instruction record and a state to an outcome
(40_execution_cycle R105 to R107, R113). -/

namespace Sys2Proof.Machine

/-- What the execute stage makes of a record before it looks at the condition. -/
inductive Presented where
  | invalid
  | refused (r : Refusal)
  | instr (i : Instr)
deriving DecidableEq, Repr

/-- The addressing modes with writeback (30_encoding R88). -/
def writebackMode : AddrMode → Bool
  | .preIndex => true
  | .postIndex => true
  | .offset => false
  | .literal => false

/-- A load or store record by its mode; LITERAL has no meaning (43_load_store R170, R175). -/
def presentIndexed (mode : AddrMode) (offset preIndex postIndex : Instr) : Presented :=
  match mode with
  | .offset => .instr offset
  | .preIndex => .instr preIndex
  | .postIndex => .instr postIndex
  | .literal => .refused .literalMode

/-- The instruction a record stands for. The opcode is tested for INVALID before any other field is looked
at (10_state R27, 40_execution_cycle R105); then mode LITERAL and a writeback flag that disagrees with
the mode are refused, whatever the opcode (40_execution_cycle R113, 43_load_store R175; DEDUCED, safe, log 9). Fields
the opcode does not use are not read (10_state R26). -/
def present (r : Record) : Presented :=
  if r.opcode = .invalid then .invalid
  else if r.mode = .literal then .refused .literalMode
  else if r.writeback ≠ writebackMode r.mode then .refused .writebackMismatch
  else
    match r.opcode with
    | .and => .instr (.and r.cond r.rd r.rn r.rm r.shift)
    | .eor => .instr (.eor r.cond r.rd r.rn r.rm r.shift)
    | .sub => .instr (.sub r.cond r.rd r.rn r.rm r.shift)
    | .add => .instr (.add r.cond r.rd r.rn r.rm r.shift)
    | .orr => .instr (.orr r.cond r.rd r.rn r.rm r.shift)
    | .addi => .instr (.addi r.cond r.rd r.rn r.imm)
    | .subi => .instr (.subi r.cond r.rd r.rn r.imm)
    | .andi => .instr (.andi r.cond r.rd r.rn r.imm)
    | .orri => .instr (.orri r.cond r.rd r.rn r.imm)
    | .eori => .instr (.eori r.cond r.rd r.rn r.imm)
    | .stur =>
      presentIndexed r.mode (.sturOffset r.cond r.rd r.rn r.imm) (.sturPreIndex r.cond r.rd r.rn r.imm)
        (.sturPostIndex r.cond r.rd r.rn r.imm)
    | .ldur =>
      presentIndexed r.mode (.ldurOffset r.cond r.rd r.rn r.imm) (.ldurPreIndex r.cond r.rd r.rn r.imm)
        (.ldurPostIndex r.cond r.rd r.rn r.imm)
    | .b => .instr (.b r.cond r.imm)
    | .bl => .instr (.bl r.cond r.imm)
    | .br => .instr (.br r.cond r.rn)
    | .blr => .instr (.blr r.cond r.rn)
    | .ret => .instr (.ret r.cond r.rn)
    | .cbz => .instr (.cbz r.cond r.rd r.imm)
    | .cbnz => .instr (.cbnz r.cond r.rd r.imm)
    | .invalid => .invalid

/-- The execute stage on any Instruction record (40_execution_cycle R105, R106, R107, R113). -/
def executeRecord (r : Record) (s : State) : Host.Outcome State Fault Refusal :=
  match present r with
  | .invalid => .next (s.raise (.invalidInstruction s.pc))
  | .refused why => .refused why
  | .instr i => exec i s

end Sys2Proof.Machine
end

