-- ==== Sys2Proof/Machine/Port.lean ====
section
/-! DEFINITION. The host port: the public operations of the core (70_reset_and_hazards R273), each one
atomic transaction between steps. -/

namespace Sys2Proof.Machine

/-- The errors of the host port: returned to the host, no state changed, not faults (60_exceptions R256). -/
inductive PortError where
  /-- A memory operation or load_program outside the memory (20_memory R59, 70_reset_and_hazards R266). -/
  | outOfBounds
  /-- `get` of an index of 32 or more (10_state R15). -/
  | invalidRegisterIndex
deriving DecidableEq, Repr

namespace Port

/-- `reset()`: the state `construct` gave, with the same parameters (70_reset_and_hazards R261). -/
def reset (s : State) : State := State.construct s.cfg

/-- `load_program(bytes, address)`: copy the bytes, then pc <- address; on failure nothing changes
(70_reset_and_hazards R265, R266). -/
def loadProgram (s : State) (bytes : List Byte) (address : Word) : Except PortError State :=
  match s.memLoad address bytes with
  | some t => .ok { t with pc := address }
  | none => .error .outOfBounds

/-- `run()` with fuel: steps until one whose outcome is not continued (40_execution_cycle R120). When the
fuel runs out first, the last step's outcome is continued (DESIGN CHOICE,
safe, log 18). -/
def run : (fuel : Nat) → State → Host.Outcome State Fault Refusal
  | 0, s => .next s
  | k + 1, s =>
    match step s with
    | .next t => if t.result = some .continued then run k t else .next t
    | .fault f => .fault f
    | .refused r => .refused r

/-- `set_breakpoint(address)` (10_state R23). -/
def setBreakpoint (s : State) (a : Word) : State := { s with breakpoints := insertAddress a s.breakpoints }

/-- `clear_breakpoint(address)` (10_state R23). -/
def clearBreakpoint (s : State) (a : Word) : State := { s with breakpoints := removeAddress a s.breakpoints }

/-- `get(index)`: an indexing error for 32 and above (10_state R15). -/
def get (s : State) (i : Nat) : Except PortError Word :=
  if i < 32 then .ok (s.reg (BitVec.ofNat 5 i)) else .error .invalidRegisterIndex

/-- `set(index, value)`: nothing happens for 31 and above (10_state R15). -/
def set (s : State) (i : Nat) (v : Word) : State := if i < 32 then s.setReg (BitVec.ofNat 5 i) v else s

/-- `set_pc`, `set_sp`, `set_flags`: no check (10_state R28). The reads are the fields themselves. -/
def setPc (s : State) (v : Word) : State := { s with pc := v }
def setSp (s : State) (v : Word) : State := { s with sp := v }
def setFlags (s : State) (f : Flags) : State := s.setFlags f

/-- `read8`, `read32`, `read64`: n bytes for n = 1, 4, 8 (20_memory R46). -/
def read (s : State) (n : Nat) (a : Word) : Except PortError Nat :=
  match s.memRead a n with
  | some v => .ok v
  | none => .error .outOfBounds

/-- `write8`, `write32`, `write64`: the low 8·n bits of the value for n = 1, 4, 8 (20_memory R46). -/
def write (s : State) (n : Nat) (a : Word) (v : Nat) : Except PortError State :=
  match s.memWrite a n v with
  | some t => .ok t
  | none => .error .outOfBounds

end Port

/-- The operations of the host port (70_reset_and_hazards R273; their form is a DESIGN CHOICE,
safe, log 17). `construct` is `State.construct`. -/
inductive Command where
  | reset
  | loadProgram (bytes : List Byte) (address : Word)
  | step
  | run (fuel : Nat)
  | setBreakpoint (address : Word)
  | clearBreakpoint (address : Word)
  | get (index : Nat)
  | set (index : Nat) (value : Word)
  | getPc
  | setPc (value : Word)
  | getSp
  | setSp (value : Word)
  | getFlags
  | setFlags (flags : Flags)
  | read8 (address : Word)
  | read32 (address : Word)
  | read64 (address : Word)
  | write8 (address : Word) (value : Nat)
  | write32 (address : Word) (value : Nat)
  | write64 (address : Word) (value : Nat)
deriving DecidableEq, Repr

/-- What an operation returns to the host. -/
inductive Reply where
  | done
  | word (v : Word)
  | value (v : Nat)
  | flags (f : Flags)
  | stepped (r : Option StepResult)
  | failed (e : PortError)
deriving DecidableEq, Repr

/-- A state change that may fail: on failure the state stays and the error is returned. -/
def Port.attempt (s : State) : Except PortError State → State × Reply
  | .ok t => (t, .done)
  | .error e => (s, .failed e)

/-- A memory read as a reply; the state stays. -/
def Port.replyRead (s : State) : Except PortError Nat → State × Reply
  | .ok v => (s, .value v)
  | .error e => (s, .failed e)

/-- A register read as a reply; the state stays. -/
def Port.replyWord (s : State) : Except PortError Word → State × Reply
  | .ok v => (s, .word v)
  | .error e => (s, .failed e)

/-- A step as the host sees it: the state it leaves and the outcome it returned (40_execution_cycle R100). -/
def Port.stepped : Host.Outcome State Fault Refusal → Host.Outcome (State × Reply) Fault Refusal
  | .next t => .next (t, .stepped t.result)
  | .fault f => .fault f
  | .refused r => .refused r

/-- A run as the host sees it: the state it leaves; it returns nothing else, and the host inspects the state
(40_execution_cycle R120). -/
def Port.finished : Host.Outcome State Fault Refusal → Host.Outcome (State × Reply) Fault Refusal
  | .next t => .next (t, .done)
  | .fault f => .fault f
  | .refused r => .refused r

/-- One operation of the host port; it works the same whether the machine is Running or Halted
(10_state R28, 60_exceptions R243). -/
def Port.apply (c : Command) (s : State) : Host.Outcome (State × Reply) Fault Refusal :=
  match c with
  | .reset => .next (Port.reset s, .done)
  | .loadProgram bytes a => .next (Port.attempt s (Port.loadProgram s bytes a))
  | .step => Port.stepped (Sys2Proof.Machine.step s)
  | .run fuel => Port.finished (Port.run fuel s)
  | .setBreakpoint a => .next (Port.setBreakpoint s a, .done)
  | .clearBreakpoint a => .next (Port.clearBreakpoint s a, .done)
  | .get i => .next (Port.replyWord s (Port.get s i))
  | .set i v => .next (Port.set s i v, .done)
  | .getPc => .next (s, .word s.pc)
  | .setPc v => .next (Port.setPc s v, .done)
  | .getSp => .next (s, .word s.sp)
  | .setSp v => .next (Port.setSp s v, .done)
  | .getFlags => .next (s, .flags s.flags)
  | .setFlags f => .next (Port.setFlags s f, .done)
  | .read8 a => .next (Port.replyRead s (Port.read s 1 a))
  | .read32 a => .next (Port.replyRead s (Port.read s 4 a))
  | .read64 a => .next (Port.replyRead s (Port.read s 8 a))
  | .write8 a v => .next (Port.attempt s (Port.write s 1 a v))
  | .write32 a v => .next (Port.attempt s (Port.write s 4 a v))
  | .write64 a v => .next (Port.attempt s (Port.write s 8 a v))

end Sys2Proof.Machine
end

