-- ==== Sys2Proof/Safety.lean ====
section
/-! DEFINITION. What a sound state and a safe run are, and the terms in which statements say what a step
changes and what it leaves unchanged. -/

namespace Sys2Proof.Machine

/-- A result after which the machine is Halted (40_execution_cycle R100, R108). -/
def haltedResult : Option StepResult → Bool
  | some (.haltedOnFault _) => true
  | some .alreadyHalted => true
  | some .continued => false
  | some .breakpointHit => false
  | none => false

namespace State

/-- The soundness of a state: the memory is in canonical form and lies inside MEM_SIZE (20_memory R40,
R41), the breakpoint set is a strictly rising list (10_state R23), and the machine is Halted exactly when
the last result says so (10_state R22). -/
abbrev Inv (s : State) : Prop :=
  Memory.wf s.mem ∧
  (∀ c ∈ s.mem, c.1 < s.cfg.memSize) ∧
  s.breakpoints.Pairwise (fun a b => a.toNat < b.toNat) ∧
  (s.running = false ↔ haltedResult s.result = true)

/-- Every register reads the same (10_state R11, R12). -/
def SameRegs (s t : State) : Prop := ∀ r : Reg, t.reg r = s.reg r

/-- The registers after `x[rd] <- v`: rd reads v unless it is the zero register, every other register
reads as before (10_state R12). -/
def RegsWritten (s t : State) (rd : Reg) (v : Word) : Prop :=
  ∀ r : Reg, t.reg r = if r = rd ∧ r ≠ xzr then v else s.reg r

/-- Every byte of memory reads the same. -/
def SameMemory (s t : State) : Prop := ∀ a : Nat, t.byte a = s.byte a

/-- The instruction retired with the pc at `target`: outcome continued, and the run flag, the stack
pointer, the breakpoint set and the parameters are unchanged (40_execution_cycle R107). -/
def RetiredAt (s t : State) (target : Word) : Prop :=
  t.pc = target ∧ t.result = some .continued ∧ t.running = s.running ∧ t.sp = s.sp ∧
  t.breakpoints = s.breakpoints ∧ t.cfg = s.cfg

/-- A logical instruction's effect: rd written, flags and memory unchanged, pc + 4. -/
def LogicalEffect (s t : State) (rd : Reg) (v : Word) : Prop :=
  RegsWritten s t rd v ∧ t.flags = s.flags ∧ SameMemory s t ∧ RetiredAt s t (s.pc + 4)

/-- An add or subtract instruction's effect: rd and all four flags written, memory unchanged, pc + 4. -/
def ArithEffect (s t : State) (rd : Reg) (v : Word) (f : Flags) : Prop :=
  RegsWritten s t rd v ∧ t.flags = f ∧ SameMemory s t ∧ RetiredAt s t (s.pc + 4)

/-- A branch's effect where it writes no register: only the pc. -/
def BranchEffect (s t : State) (target : Word) : Prop :=
  SameRegs s t ∧ t.flags = s.flags ∧ SameMemory s t ∧ RetiredAt s t target

/-- A linking branch's effect: X30 holds the return address, the pc the target. -/
def LinkEffect (s t : State) (target : Word) : Prop :=
  RegsWritten s t linkReg (s.pc + 4) ∧ t.flags = s.flags ∧ SameMemory s t ∧ RetiredAt s t target

/-- A store's effect: the eight bytes from `ea` hold the register's value, least significant first, every
other byte is as before; only the base register may be written, with `wb`. -/
def StoreEffect (s t : State) (ea : Word) (v : Word) (rn : Reg) (wb : Option Word) : Prop :=
  (∀ i : Nat, i < 8 → t.byte (ea.toNat + i) = v.extractLsb' (8 * i) 8) ∧
  (∀ a : Nat, a < ea.toNat ∨ ea.toNat + 8 ≤ a → t.byte a = s.byte a) ∧
  (match wb with
    | none => SameRegs s t
    | some b => RegsWritten s t rn b) ∧
  t.flags = s.flags ∧ RetiredAt s t (s.pc + 4)

/-- A load's effect: rt holds the eight bytes from `ea`, least significant first, and the base register
`wb`, which wins where the two are one register; memory is unchanged. -/
def LoadEffect (s t : State) (ea : Word) (rt rn : Reg) (wb : Option Word) : Prop :=
  (∃ v : Word,
    (∀ i : Nat, i < 8 → v.extractLsb' (8 * i) 8 = s.byte (ea.toNat + i)) ∧
    ∀ r : Reg, t.reg r =
      match wb with
      | none => if r = rt ∧ r ≠ xzr then v else s.reg r
      | some b => if r = rn ∧ r ≠ xzr then b else if r = rt ∧ r ≠ xzr then v else s.reg r) ∧
  t.flags = s.flags ∧ SameMemory s t ∧ RetiredAt s t (s.pc + 4)

/-- The state a fault leaves: Halted with the record as the result, everything else as it was
(60_exceptions R241). -/
def Faulted (s t : State) (f : Fault) : Prop :=
  t = { s with running := false, result := some (.haltedOnFault f) }

end State

/-- The write of the n low bytes of v at an address: byte a + i is (v >> 8·i) mod 256, every other byte and
every other field is as before (20_memory R44, R49). -/
def WritesBytes (s t : State) (a : Word) (n v : Nat) : Prop :=
  (∀ i : Nat, i < n → (t.byte (a.toNat + i)).toNat = v / 2 ^ (8 * i) % 2 ^ 8) ∧
  (∀ b : Nat, b < a.toNat ∨ a.toNat + n ≤ b → t.byte b = s.byte b) ∧
  t = { s with mem := t.mem }

/-- Two records of one opcode and condition that agree on every field the opcode uses (the table of 10_state
R26; the rules of each class). -/
def SameUsedFields (q r : Record) : Prop :=
  q.opcode = r.opcode ∧ q.cond = r.cond ∧
  match r.opcode with
  | .and | .eor | .sub | .add | .orr => q.rd = r.rd ∧ q.rn = r.rn ∧ q.rm = r.rm ∧ q.shift = r.shift
  | .addi | .subi | .andi | .orri | .eori => q.rd = r.rd ∧ q.rn = r.rn ∧ q.imm = r.imm
  | .ldur | .stur =>
    q.rd = r.rd ∧ q.rn = r.rn ∧ q.imm = r.imm ∧ q.mode = r.mode ∧ q.writeback = r.writeback
  | .b | .bl => q.imm = r.imm
  | .br | .blr | .ret => q.rn = r.rn
  | .cbz | .cbnz => q.rd = r.rd ∧ q.imm = r.imm
  | .invalid => True

/-- Every word with the given fixed bits decodes to the instruction `mk` makes of it, on a machine with
DECODE_EORI `decodeEori` (30_encoding R89). -/
def EncodedBy (decodeEori : Bool) (mask fixed : InstrWord) (mk : InstrWord → Instr) : Prop :=
  ∀ w : InstrWord, w &&& mask = fixed → decode decodeEori w = .ok (mk w)

/-- LDUR by its addressing mode: `ldurOffset`, `ldurPreIndex` or `ldurPostIndex` (43_load_store R171). -/
def ldurOf (m : Indexing) (cond : Cond) (rt rn : Reg) (imm : Word) : Instr :=
  match m with
  | .offset => .ldurOffset cond rt rn imm
  | .preIndex => .ldurPreIndex cond rt rn imm
  | .postIndex => .ldurPostIndex cond rt rn imm

/-- STUR by its addressing mode: `sturOffset`, `sturPreIndex` or `sturPostIndex` (43_load_store R172). -/
def sturOf (m : Indexing) (cond : Cond) (rt rn : Reg) (imm : Word) : Instr :=
  match m with
  | .offset => .sturOffset cond rt rn imm
  | .preIndex => .sturPreIndex cond rt rn imm
  | .postIndex => .sturPostIndex cond rt rn imm

/-- The registers an instruction reads, by number (the table of 10_state R13). -/
def regsRead : Instr → List Reg
  | .and _ _ rn rm _ | .eor _ _ rn rm _ | .sub _ _ rn rm _ | .add _ _ rn rm _ | .orr _ _ rn rm _ => [rn, rm]
  | .addi _ _ rn _ | .subi _ _ rn _ | .andi _ _ rn _ | .orri _ _ rn _ | .eori _ _ rn _ => [rn]
  | .ldurOffset _ _ rn _ | .ldurPreIndex _ _ rn _ | .ldurPostIndex _ _ rn _ => [rn]
  | .sturOffset _ rt rn _ | .sturPreIndex _ rt rn _ | .sturPostIndex _ rt rn _ => [rn, rt]
  | .b _ _ | .bl _ _ => []
  | .br _ rn | .blr _ rn | .ret _ rn => [rn]
  | .cbz _ rt _ | .cbnz _ rt _ => [rt]

/-- The registers an instruction writes, by number (the table of 10_state R13). -/
def regsWritten : Instr → List Reg
  | .and _ rd _ _ _ | .eor _ rd _ _ _ | .sub _ rd _ _ _ | .add _ rd _ _ _ | .orr _ rd _ _ _ => [rd]
  | .addi _ rd _ _ | .subi _ rd _ _ | .andi _ rd _ _ | .orri _ rd _ _ | .eori _ rd _ _ => [rd]
  | .ldurOffset _ rt _ _ => [rt]
  | .ldurPreIndex _ rt rn _ | .ldurPostIndex _ rt rn _ => [rt, rn]
  | .sturOffset _ _ _ _ => []
  | .sturPreIndex _ _ rn _ | .sturPostIndex _ _ rn _ => [rn]
  | .bl _ _ | .blr _ _ => [linkReg]
  | .b _ _ | .br _ _ | .ret _ _ | .cbz _ _ _ | .cbnz _ _ _ => []

/-- The pc an executed instruction leaves, row by row (the table of 10_state R17). -/
def executedPc (i : Instr) (s : State) : Word :=
  match i with
  | .b _ imm | .bl _ imm => s.pc + imm
  | .br _ rn | .blr _ rn | .ret _ rn => s.reg rn
  | .cbz _ rt imm => if s.reg rt = 0#64 then s.pc + imm else s.pc + 4
  | .cbnz _ rt imm => if s.reg rt = 0#64 then s.pc + 4 else s.pc + imm
  | .and .. | .eor .. | .sub .. | .add .. | .orr .. | .addi .. | .subi .. | .andi .. | .orri .. | .eori ..
  | .sturOffset .. | .sturPreIndex .. | .sturPostIndex ..
  | .ldurOffset .. | .ldurPreIndex .. | .ldurPostIndex .. => s.pc + 4

/-- What the conditions say of two values after their difference set the flags (40_execution_cycle R112). -/
def ComparesAs (a b : Word) (f : Flags) : Prop :=
  (Cond.eq.holds f = true ↔ a = b) ∧ (Cond.ne.holds f = true ↔ a ≠ b) ∧
  (Cond.cs.holds f = true ↔ b.toNat ≤ a.toNat) ∧ (Cond.cc.holds f = true ↔ a.toNat < b.toNat) ∧
  (Cond.hi.holds f = true ↔ b.toNat < a.toNat) ∧ (Cond.ls.holds f = true ↔ a.toNat ≤ b.toNat) ∧
  (Cond.ge.holds f = true ↔ b.toInt ≤ a.toInt) ∧ (Cond.lt.holds f = true ↔ a.toInt < b.toInt) ∧
  (Cond.gt.holds f = true ↔ b.toInt < a.toInt) ∧ (Cond.le.holds f = true ↔ a.toInt ≤ b.toInt) ∧
  (Cond.mi.holds f = true ↔ (a - b).getLsbD 63 = true) ∧
  (Cond.vs.holds f = true ↔ a.toInt - b.toInt < -2 ^ 63 ∨ 2 ^ 63 ≤ a.toInt - b.toInt)

/-- `n` steps in a row. -/
def steps : Nat → State → Host.Outcome State Fault Refusal
  | 0, s => .next s
  | n + 1, s =>
    match steps n s with
    | .next t => step t
    | .fault f => .fault f
    | .refused r => .refused r

/-- The host operations one after the other, the replies dropped. -/
def applyAll : List Command → State → Host.Outcome State Fault Refusal
  | [], s => .next s
  | c :: cs, s =>
    match Port.apply c s with
    | .next (t, _) => applyAll cs t
    | .fault f => .fault f
    | .refused r => .refused r

/-- A safe run of `n` steps: each of them retires an instruction (40_execution_cycle R100). -/
def SafeFor (n : Nat) (s : State) : Prop :=
  ∀ k : Nat, k < n → ∃ t : State, steps (k + 1) s = .next t ∧ t.result = some .continued

end Sys2Proof.Machine
end

