-- ==== Sys2Proof/Certificates/Slice0/Obligations.lean ====
section
/-! DEFINITION. The statements for the provers. Each docstring names the rule of spec/ it formalises. Every
statement holds whatever the three parameters are: `State.cfg` is arbitrary. Where a rule says what a step
returns, the statement reads it in the field `result`, which holds the step's outcome (log 4); a fault is
a next state with `running` false and its record in `result` (log 5). -/

open Sys2Proof Sys2Proof.Machine

/-! ### Decoding and encoding -/

/-- Words written out from the encodings decode to the instructions they stand for (95_test_vectors V1). -/
def Obligations.WrittenWordsDecode : Prop :=
  decode false 0x08C20023#32 = .ok (.and .al 3 1 2 3) ∧
  decode false 0x68820023#32 = .ok (.add .al 3 1 2 2) ∧
  decode false 0x10001401#32 = .ok (.addi .al 1 0 5) ∧
  decode false 0x103FFC41#32 = .ok (.addi .al 1 2 0xFFFFFFFFFFFFFFFF#64) ∧
  decode false 0x5BFFC041#32 = .ok (.sturPostIndex .al 1 2 0xFFFFFFFFFFFFFFF0#64) ∧
  decode false 0xB8002041#32 = .ok (.ldurPreIndex .al 1 2 8) ∧
  decode false 0x17FFFFFE#32 = .ok (.b .al 0xFFFFFFFFFFFFFFF8#64) ∧
  decode false 0x94000000#32 = .ok (.ret .al 30) ∧
  decode false 0x940000A0#32 = .ok (.ret .al 5) ∧
  decode false 0xB4000063#32 = .ok (.cbz .al 3 12) ∧
  decode true 0x90155441#32 = .ok (.eori .al 1 2 0x555) ∧
  decode false 0x90155441#32 = .error .immediateClass ∧
  decode false 0#32 = .error .noClass ∧ decode false 0xFFFFFFFF#32 = .error .noClass

/-- Decoding the word of a well-formed instruction gives the instruction back, for every instruction,
every operand value the encoding admits and both values of DECODE_EORI (30_encoding sections 2, 3, 7). -/
def Obligations.DecodeOfEncode : Prop :=
  ∀ (e : Bool) (i : Instr), i.wf e = true → decode e (encode i) = .ok i

/-- A word that decodes gives a well-formed instruction, and it is the word the encoder writes for it, but
for the second word of RET X30 (30_encoding R73, R88). That the encoder writes field 30 for RET X30 is the
model's choice (log 12). -/
def Obligations.EncodeOfDecode : Prop :=
  ∀ (e : Bool) (w : InstrWord) (i : Instr), decode e w = .ok i →
    i.wf e = true ∧ (encode i = w ∨ (w = 0x94000000#32 ∧ i = .ret .al 30#5))

/-- Two different valid words never decode to one record, except RET with field 0 and with field 30
(30_encoding R82). -/
def Obligations.DistinctWordsDistinctRecords : Prop :=
  (∀ (e : Bool) (w w' : InstrWord),
    (decodeRecord e w).opcode ≠ .invalid → decodeRecord e w = decodeRecord e w' →
      w = w' ∨ (w = 0x94000000#32 ∧ w' = 0x940003C0#32) ∨ (w = 0x940003C0#32 ∧ w' = 0x94000000#32)) ∧
  (∀ e : Bool, decodeRecord e 0x94000000#32 = { opcode := .ret, rn := 30#5 } ∧
    decodeRecord e 0x940003C0#32 = { opcode := .ret, rn := 30#5 })

/-- The INVALID space, complete, and what executing an INVALID word does (30_encoding R90). -/
def Obligations.InvalidSpace : Prop :=
  (∀ (e : Bool) (w : InstrWord),
    (decodeRecord e w).opcode = .invalid ↔
      w.extractLsb' 26 3 ∈ [0b000#3, 0b001#3, 0b011#3, 0b111#3] ∨
      (w.extractLsb' 26 3 = 0b010#3 ∧
        (w.extractLsb' 29 3 ∈ [0b101#3, 0b110#3, 0b111#3] ∨ w.extractLsb' 24 2 ≠ 0#2 ∨
          w.extractLsb' 21 1 ≠ 0#1 ∨ w.extractLsb' 10 6 ≠ 0#6)) ∨
      (w.extractLsb' 26 3 = 0b100#3 ∧
        (w.extractLsb' 29 3 ∈ [0b101#3, 0b110#3, 0b111#3] ∨ w.extractLsb' 22 4 ≠ 0#4 ∨
          (w.extractLsb' 29 3 = 0b100#3 ∧ e = false))) ∨
      (w.extractLsb' 26 3 = 0b110#3 ∧ w.extractLsb' 29 2 = 0b11#2) ∨
      (w.extractLsb' 26 3 = 0b101#3 ∧
        (w.extractLsb' 29 3 = 0b111#3 ∨
          (w.extractLsb' 29 3 ∈ [0b010#3, 0b011#3, 0b100#3] ∧
            (w.extractLsb' 10 16 ≠ 0#16 ∨ w.extractLsb' 0 5 ≠ 0#5)) ∨
          (w.extractLsb' 29 3 ∈ [0b101#3, 0b110#3] ∧ w.extractLsb' 24 2 ≠ 0#2)))) ∧
  (∀ (s : State) (w : InstrWord),
    s.running = true → s.pc ∉ s.breakpoints → s.fetch = some w →
      (decodeRecord s.cfg.decodeEori w).opcode = .invalid →
      step s = .next
        { s with running := false, result := some (.haltedOnFault (.invalidInstruction s.pc)) })

/-- The opcode map: a word is an instruction of a row exactly when it has the row's fixed bits (EORI's row
under DECODE_EORI only), no word is in two rows, and a word in no row is INVALID (30_encoding R89). -/
def Obligations.OpcodeMap : Prop :=
  (∀ (e : Bool) (w : InstrWord) (j : Instr),
    (∃ i : Instr, decode e w = .ok i ∧ i.rowMatch = j.rowMatch) ↔
      (w &&& j.rowMask = j.rowMatch ∧ (j.opcode = .eori → e = true))) ∧
  (∀ (w : InstrWord) (i j : Instr),
    w &&& i.rowMask = i.rowMatch → w &&& j.rowMask = j.rowMatch → i.rowMatch = j.rowMatch) ∧
  (∀ (e : Bool) (w : InstrWord),
    (∀ j : Instr, w &&& j.rowMask ≠ j.rowMatch) → (decodeRecord e w).opcode = .invalid)

/-- The immediates of the four formats are the two's complement values of their fields, the branch offsets
times 4 (30_encoding R83, R85, R86; the sign extension is 00_scope R8). -/
def Obligations.ImmediatesAreSigned : Prop :=
  ∀ w : InstrWord,
    (imm12Of w).toInt =
      (if (w.extractLsb' 10 12).toNat < 2 ^ 11 then ((w.extractLsb' 10 12).toNat : Int)
        else ((w.extractLsb' 10 12).toNat : Int) - 2 ^ 12) ∧
    (imm16Of w).toInt =
      (if (w.extractLsb' 10 16).toNat < 2 ^ 15 then ((w.extractLsb' 10 16).toNat : Int)
        else ((w.extractLsb' 10 16).toNat : Int) - 2 ^ 16) ∧
    (imm26Of w).toInt =
      4 * (if (w.extractLsb' 0 26).toNat < 2 ^ 25 then ((w.extractLsb' 0 26).toNat : Int)
        else ((w.extractLsb' 0 26).toNat : Int) - 2 ^ 26) ∧
    (imm19Of w).toInt =
      4 * (if (w.extractLsb' 5 19).toNat < 2 ^ 18 then ((w.extractLsb' 5 19).toNat : Int)
        else ((w.extractLsb' 5 19).toNat : Int) - 2 ^ 19)

/-! ### Flags and conditions -/

/-- The condition evaluator, all sixteen rows (40_execution_cycle R110). -/
def Obligations.ConditionTable : Prop :=
  ∀ n z c v : Bool,
    let f : Flags := { n := n, z := z, c := c, v := v }
    (Cond.eq.holds f = true ↔ z = true) ∧ (Cond.ne.holds f = true ↔ ¬z = true) ∧
    (Cond.cs.holds f = true ↔ c = true) ∧ (Cond.cc.holds f = true ↔ ¬c = true) ∧
    (Cond.mi.holds f = true ↔ n = true) ∧ (Cond.pl.holds f = true ↔ ¬n = true) ∧
    (Cond.vs.holds f = true ↔ v = true) ∧ (Cond.vc.holds f = true ↔ ¬v = true) ∧
    (Cond.hi.holds f = true ↔ c = true ∧ ¬z = true) ∧ (Cond.ls.holds f = true ↔ ¬c = true ∨ z = true) ∧
    (Cond.ge.holds f = true ↔ n = v) ∧ (Cond.lt.holds f = true ↔ n ≠ v) ∧
    (Cond.gt.holds f = true ↔ n = v ∧ ¬z = true) ∧ (Cond.le.holds f = true ↔ n ≠ v ∨ z = true) ∧
    Cond.al.holds f = true ∧ Cond.nv.holds f = false

/-- The adder with flags, its use for addition and subtraction, and the equivalent forms of C and V
(41_dp_register R130). -/
def Obligations.AdderResultAndFlags : Prop :=
  (∀ (a b : Word) (cin : Bool),
    (addWithCarry a b cin).1.toNat = (a.toNat + b.toNat + cin.toNat) % 2 ^ 64 ∧
    ((addWithCarry a b cin).2.n = true ↔ (addWithCarry a b cin).1.getLsbD 63 = true) ∧
    ((addWithCarry a b cin).2.z = true ↔ (addWithCarry a b cin).1 = 0#64) ∧
    ((addWithCarry a b cin).2.c = true ↔ 2 ^ 64 ≤ a.toNat + b.toNat + cin.toNat) ∧
    ((addWithCarry a b cin).2.v = true ↔
      (addWithCarry a b cin).1.toInt ≠ a.toInt + b.toInt + (cin.toNat : Int))) ∧
  (∀ a b : Word,
    addFlags a b = addWithCarry a b false ∧ (addFlags a b).1 = a + b ∧
    ((addFlags a b).2.v = true ↔
      a.getLsbD 63 = b.getLsbD 63 ∧ (addFlags a b).1.getLsbD 63 ≠ a.getLsbD 63) ∧
    subFlags a b = addWithCarry a (~~~b) true ∧ (~~~b).toNat = 2 ^ 64 - 1 - b.toNat ∧
    (subFlags a b).1 = a - b ∧ ((subFlags a b).2.c = true ↔ b.toNat ≤ a.toNat) ∧
    ((subFlags a b).2.v = true ↔ a.toInt - b.toInt < -2 ^ 63 ∨ 2 ^ 63 - 1 < a.toInt - b.toInt) ∧
    ((subFlags a b).2.v = true ↔
      a.getLsbD 63 ≠ b.getLsbD 63 ∧ (subFlags a b).1.getLsbD 63 ≠ a.getLsbD 63))

/-- What the conditions mean after SUB and SUBI (40_execution_cycle R112). That SUBI uses an immediate outside
-2048 to +2047, which no word carries, as it stands is the model's reading (log 10). -/
def Obligations.ConditionsAfterSubtraction : Prop :=
  ∀ (c : Cond) (rd rn rm : Reg) (sh : BitVec 6) (imm : Word) (s : State), c.holds s.flags = true →
    (∃ t : State, exec (.sub c rd rn rm sh) s = .next t ∧
      ComparesAs (s.reg rn) (s.reg rm <<< sh.toNat) t.flags) ∧
    (∃ t : State, exec (.subi c rd rn imm) s = .next t ∧ ComparesAs (s.reg rn) imm t.flags)

/-- An instruction whose condition is false retires by pc + 4 and changes nothing else, whatever its opcode;
NV is false under all flags (40_execution_cycle R106, R111). -/
def Obligations.FalseConditionSkips : Prop :=
  (∀ (i : Instr) (s : State), i.cond.holds s.flags = false →
    exec i s = .next { s with pc := s.pc + 4, result := some .continued }) ∧
  (∀ f : Flags, Cond.nv.holds f = false)

/-! ### The instructions -/

/-- AND, EOR and ORR: encoding, result, frame (41_dp_register R132, R133, R136). -/
def Obligations.LogicalRegister : Prop :=
  (∀ e : Bool,
    EncodedBy e 0xFF20FC00#32 0x08000000#32 (fun w => .and .al (w.extractLsb' 0 5) (w.extractLsb' 5 5)
      (w.extractLsb' 16 5) ((w.extractLsb' 22 2).setWidth 6)) ∧
    EncodedBy e 0xFF20FC00#32 0x28000000#32 (fun w => .eor .al (w.extractLsb' 0 5) (w.extractLsb' 5 5)
      (w.extractLsb' 16 5) ((w.extractLsb' 22 2).setWidth 6)) ∧
    EncodedBy e 0xFF20FC00#32 0x88000000#32 (fun w => .orr .al (w.extractLsb' 0 5) (w.extractLsb' 5 5)
      (w.extractLsb' 16 5) ((w.extractLsb' 22 2).setWidth 6))) ∧
  (∀ (c : Cond) (rd rn rm : Reg) (sh : BitVec 6) (s : State), c.holds s.flags = true →
    (∃ t : State, exec (.and c rd rn rm sh) s = .next t ∧
      s.LogicalEffect t rd (s.reg rn &&& (s.reg rm <<< sh.toNat))) ∧
    (∃ t : State, exec (.eor c rd rn rm sh) s = .next t ∧
      s.LogicalEffect t rd (s.reg rn ^^^ (s.reg rm <<< sh.toNat))) ∧
    (∃ t : State, exec (.orr c rd rn rm sh) s = .next t ∧
      s.LogicalEffect t rd (s.reg rn ||| (s.reg rm <<< sh.toNat))))

/-- SUB and ADD: encoding, result, flags, frame (41_dp_register R134, R135). -/
def Obligations.ArithmeticRegister : Prop :=
  (∀ e : Bool,
    EncodedBy e 0xFF20FC00#32 0x48000000#32 (fun w => .sub .al (w.extractLsb' 0 5) (w.extractLsb' 5 5)
      (w.extractLsb' 16 5) ((w.extractLsb' 22 2).setWidth 6)) ∧
    EncodedBy e 0xFF20FC00#32 0x68000000#32 (fun w => .add .al (w.extractLsb' 0 5) (w.extractLsb' 5 5)
      (w.extractLsb' 16 5) ((w.extractLsb' 22 2).setWidth 6))) ∧
  (∀ (c : Cond) (rd rn rm : Reg) (sh : BitVec 6) (s : State), c.holds s.flags = true →
    (∃ t : State, exec (.sub c rd rn rm sh) s = .next t ∧
      s.ArithEffect t rd (s.reg rn - (s.reg rm <<< sh.toNat))
        (addWithCarry (s.reg rn) (~~~(s.reg rm <<< sh.toNat)) true).2) ∧
    (∃ t : State, exec (.add c rd rn rm sh) s = .next t ∧
      s.ArithEffect t rd (s.reg rn + (s.reg rm <<< sh.toNat))
        (addWithCarry (s.reg rn) (s.reg rm <<< sh.toNat) false).2))

/-- ADDI and SUBI: encoding, result, flags, frame (42_dp_immediate R151, R152). The immediate is any 64-bit
value of the record: that one outside -2048 to +2047, which no word carries, is used as it stands is the
model's reading (log 10). -/
def Obligations.ArithmeticImmediate : Prop :=
  (∀ e : Bool,
    EncodedBy e 0xFFC00000#32 0x10000000#32 (fun w => .addi .al (w.extractLsb' 0 5) (w.extractLsb' 5 5)
      ((w.extractLsb' 10 12).signExtend 64)) ∧
    EncodedBy e 0xFFC00000#32 0x30000000#32 (fun w => .subi .al (w.extractLsb' 0 5) (w.extractLsb' 5 5)
      ((w.extractLsb' 10 12).signExtend 64))) ∧
  (∀ (c : Cond) (rd rn : Reg) (imm : Word) (s : State), c.holds s.flags = true →
    (∃ t : State, exec (.addi c rd rn imm) s = .next t ∧
      s.ArithEffect t rd (s.reg rn + imm) (addWithCarry (s.reg rn) imm false).2) ∧
    (∃ t : State, exec (.subi c rd rn imm) s = .next t ∧
      s.ArithEffect t rd (s.reg rn - imm) (addWithCarry (s.reg rn) (~~~imm) true).2))

/-- ANDI and ORRI: encoding, result, frame (42_dp_immediate R153, R154). The immediate is any 64-bit value of
the record: that one outside -2048 to +2047, which no word carries, is used as it stands is the model's
reading (log 10). -/
def Obligations.LogicalImmediate : Prop :=
  (∀ e : Bool,
    EncodedBy e 0xFFC00000#32 0x50000000#32 (fun w => .andi .al (w.extractLsb' 0 5) (w.extractLsb' 5 5)
      ((w.extractLsb' 10 12).signExtend 64)) ∧
    EncodedBy e 0xFFC00000#32 0x70000000#32 (fun w => .orri .al (w.extractLsb' 0 5) (w.extractLsb' 5 5)
      ((w.extractLsb' 10 12).signExtend 64))) ∧
  (∀ (c : Cond) (rd rn : Reg) (imm : Word) (s : State), c.holds s.flags = true →
    (∃ t : State, exec (.andi c rd rn imm) s = .next t ∧ s.LogicalEffect t rd (s.reg rn &&& imm)) ∧
    (∃ t : State, exec (.orri c rd rn imm) s = .next t ∧ s.LogicalEffect t rd (s.reg rn ||| imm)))

/-- EORI: its encoding under DECODE_EORI, its words INVALID without it, result, frame. The spec marks the
result as its own inference from the rules of the class and of EOR (42_dp_immediate, the rule of EORI); that an
immediate outside -2048 to +2047 is used as it stands is the model's reading (log 10). -/
def Obligations.ExclusiveOrImmediate : Prop :=
  EncodedBy true 0xFFC00000#32 0x90000000#32 (fun w => .eori .al (w.extractLsb' 0 5) (w.extractLsb' 5 5)
    ((w.extractLsb' 10 12).signExtend 64)) ∧
  (∀ w : InstrWord, w &&& 0xFFC00000#32 = 0x90000000#32 → (decodeRecord false w).opcode = .invalid) ∧
  (∀ (c : Cond) (rd rn : Reg) (imm : Word) (s : State), c.holds s.flags = true →
    ∃ t : State, exec (.eori c rd rn imm) s = .next t ∧ s.LogicalEffect t rd (s.reg rn ^^^ imm))

/-- LDUR (43_load_store R171): its encoding, its completion (`ldurOffset`, `ldurPreIndex`, `ldurPostIndex`)
with result, writeback and frame, and where it faults. The first clause spells out the effective address
and the writeback value of each mode; that rule (R170) the spec marks as general knowledge for POST_INDEX
(log 16). -/
def Obligations.LoadRegister : Prop :=
  (∀ base imm : Word,
    effectiveAddress .offset base imm = base + imm ∧ writebackValue .offset base imm = none ∧
    effectiveAddress .preIndex base imm = base + imm ∧ writebackValue .preIndex base imm = some (base + imm) ∧
    effectiveAddress .postIndex base imm = base ∧ writebackValue .postIndex base imm = some (base + imm)) ∧
  (∀ e : Bool,
    EncodedBy e 0xFC000000#32 0x98000000#32 (fun w => .ldurOffset .al (w.extractLsb' 0 5)
      (w.extractLsb' 5 5) ((w.extractLsb' 10 16).signExtend 64)) ∧
    EncodedBy e 0xFC000000#32 0xB8000000#32 (fun w => .ldurPreIndex .al (w.extractLsb' 0 5)
      (w.extractLsb' 5 5) ((w.extractLsb' 10 16).signExtend 64)) ∧
    EncodedBy e 0xFC000000#32 0xD8000000#32 (fun w => .ldurPostIndex .al (w.extractLsb' 0 5)
      (w.extractLsb' 5 5) ((w.extractLsb' 10 16).signExtend 64))) ∧
  (∀ (m : Indexing) (c : Cond) (rt rn : Reg) (imm : Word) (s : State), c.holds s.flags = true →
    (effectiveAddress m (s.reg rn) imm).toNat + 8 ≤ s.cfg.memSize →
    ∃ t : State, exec (ldurOf m c rt rn imm) s = .next t ∧
      s.LoadEffect t (effectiveAddress m (s.reg rn) imm) rt rn (writebackValue m (s.reg rn) imm)) ∧
  (∀ (m : Indexing) (c : Cond) (rt rn : Reg) (imm : Word) (s : State), c.holds s.flags = true →
    s.cfg.memSize < (effectiveAddress m (s.reg rn) imm).toNat + 8 →
    ∃ t : State, exec (ldurOf m c rt rn imm) s = .next t ∧
      s.Faulted t (.outOfBounds s.pc (effectiveAddress m (s.reg rn) imm) 8))

/-- STUR (43_load_store R172): its encoding, its completion (`sturOffset`, `sturPreIndex`, `sturPostIndex`)
with the stored bytes, writeback and frame, and where it faults. The first clause spells out the effective
address and the writeback value of each mode (R170, log 16). The memory's canonical form is a premise,
kept by every step (`StepKeepsInvariant`). -/
def Obligations.StoreRegister : Prop :=
  (∀ base imm : Word,
    effectiveAddress .offset base imm = base + imm ∧ writebackValue .offset base imm = none ∧
    effectiveAddress .preIndex base imm = base + imm ∧ writebackValue .preIndex base imm = some (base + imm) ∧
    effectiveAddress .postIndex base imm = base ∧ writebackValue .postIndex base imm = some (base + imm)) ∧
  (∀ e : Bool,
    EncodedBy e 0xFC000000#32 0x18000000#32 (fun w => .sturOffset .al (w.extractLsb' 0 5)
      (w.extractLsb' 5 5) ((w.extractLsb' 10 16).signExtend 64)) ∧
    EncodedBy e 0xFC000000#32 0x38000000#32 (fun w => .sturPreIndex .al (w.extractLsb' 0 5)
      (w.extractLsb' 5 5) ((w.extractLsb' 10 16).signExtend 64)) ∧
    EncodedBy e 0xFC000000#32 0x58000000#32 (fun w => .sturPostIndex .al (w.extractLsb' 0 5)
      (w.extractLsb' 5 5) ((w.extractLsb' 10 16).signExtend 64))) ∧
  (∀ (m : Indexing) (c : Cond) (rt rn : Reg) (imm : Word) (s : State), s.Inv → c.holds s.flags = true →
    (effectiveAddress m (s.reg rn) imm).toNat + 8 ≤ s.cfg.memSize →
    ∃ t : State, exec (sturOf m c rt rn imm) s = .next t ∧
      s.StoreEffect t (effectiveAddress m (s.reg rn) imm) (s.reg rt) rn (writebackValue m (s.reg rn) imm)) ∧
  (∀ (m : Indexing) (c : Cond) (rt rn : Reg) (imm : Word) (s : State), c.holds s.flags = true →
    s.cfg.memSize < (effectiveAddress m (s.reg rn) imm).toNat + 8 →
    ∃ t : State, exec (sturOf m c rt rn imm) s = .next t ∧
      s.Faulted t (.outOfBounds s.pc (effectiveAddress m (s.reg rn) imm) 8))

/-- B: encoding, target, frame (44_branch R191). -/
def Obligations.Branch : Prop :=
  (∀ e : Bool, EncodedBy e 0xFC000000#32 0x14000000#32
    (fun w => .b .al (4#64 * (w.extractLsb' 0 26).signExtend 64))) ∧
  (∀ (c : Cond) (imm : Word) (s : State), c.holds s.flags = true →
    ∃ t : State, exec (.b c imm) s = .next t ∧ s.BranchEffect t (s.pc + imm))

/-- BL: encoding, link, target, frame (44_branch R192). -/
def Obligations.BranchWithLink : Prop :=
  (∀ e : Bool, EncodedBy e 0xFC000000#32 0x34000000#32
    (fun w => .bl .al (4#64 * (w.extractLsb' 0 26).signExtend 64))) ∧
  (∀ (c : Cond) (imm : Word) (s : State), c.holds s.flags = true →
    ∃ t : State, exec (.bl c imm) s = .next t ∧ s.LinkEffect t (s.pc + imm))

/-- BR and RET: encoding (RET's field 0 means X30), target, frame (44_branch R193, R195). -/
def Obligations.BranchToRegister : Prop :=
  (∀ e : Bool,
    EncodedBy e 0xFFFFFC1F#32 0x54000000#32 (fun w => .br .al (w.extractLsb' 5 5)) ∧
    EncodedBy e 0xFFFFFC1F#32 0x94000000#32
      (fun w => .ret .al (if w.extractLsb' 5 5 = 0#5 then 30#5 else w.extractLsb' 5 5))) ∧
  (∀ (c : Cond) (rn : Reg) (s : State), c.holds s.flags = true →
    (∃ t : State, exec (.br c rn) s = .next t ∧ s.BranchEffect t (s.reg rn)) ∧
    (∃ t : State, exec (.ret c rn) s = .next t ∧ s.BranchEffect t (s.reg rn)))

/-- BLR: encoding, the target read before X30 is written, frame (44_branch R194). -/
def Obligations.BranchWithLinkToRegister : Prop :=
  (∀ e : Bool, EncodedBy e 0xFFFFFC1F#32 0x74000000#32 (fun w => .blr .al (w.extractLsb' 5 5))) ∧
  (∀ (c : Cond) (rn : Reg) (s : State), c.holds s.flags = true →
    ∃ t : State, exec (.blr c rn) s = .next t ∧ s.LinkEffect t (s.reg rn))

/-- CBZ and CBNZ: encoding, both outcomes, frame (44_branch R196, R197). -/
def Obligations.CompareAndBranch : Prop :=
  (∀ e : Bool,
    EncodedBy e 0xFF000000#32 0xB4000000#32
      (fun w => .cbz .al (w.extractLsb' 0 5) (4#64 * (w.extractLsb' 5 19).signExtend 64)) ∧
    EncodedBy e 0xFF000000#32 0xD4000000#32
      (fun w => .cbnz .al (w.extractLsb' 0 5) (4#64 * (w.extractLsb' 5 19).signExtend 64))) ∧
  (∀ (c : Cond) (rt : Reg) (imm : Word) (s : State), c.holds s.flags = true →
    (∃ t : State, exec (.cbz c rt imm) s = .next t ∧
      s.BranchEffect t (if s.reg rt = 0#64 then s.pc + imm else s.pc + 4)) ∧
    (∃ t : State, exec (.cbnz c rt imm) s = .next t ∧
      s.BranchEffect t (if s.reg rt = 0#64 then s.pc + 4 else s.pc + imm)))

/-! ### Rules over all instructions -/

/-- The new pc: the table of an executed instruction, pc + 4 for a false condition, and no change for an
outcome other than continued (10_state R17). -/
def Obligations.NewPc : Prop :=
  (∀ (i : Instr) (s t : State), exec i s = .next t → t.result = some .continued →
    t.pc = if i.cond.holds s.flags = true then executedPc i s else s.pc + 4) ∧
  (∀ (i : Instr) (s t : State), exec i s = .next t → t.result ≠ some .continued → t.pc = s.pc) ∧
  (∀ s t : State, step s = .next t → t.result ≠ some .continued → t.pc = s.pc)

/-- Which registers an instruction writes and reads: no other register changes; a register it does not read
has no influence on any other register, the flags, the memory, the pc or the outcome, nor on what the
instruction writes into that register itself when it executes (10_state R13). -/
def Obligations.RegistersReadAndWritten : Prop :=
  (∀ (i : Instr) (s t : State) (r : Reg), exec i s = .next t → r ∉ regsWritten i → t.reg r = s.reg r) ∧
  (∀ (i : Instr) (s t t' : State) (r : Reg) (v : Word), r ∉ regsRead i →
    exec i s = .next t → exec i (s.setReg r v) = .next t' →
      t'.pc = t.pc ∧ t'.flags = t.flags ∧ t'.mem = t.mem ∧ t'.running = t.running ∧ t'.result = t.result ∧
      (∀ q : Reg, q ≠ r → t'.reg q = t.reg q) ∧
      (r ∈ regsWritten i → i.cond.holds s.flags = true → t.result = some .continued → t'.reg r = t.reg r))

/-- No instruction but ADD, SUB, ADDI and SUBI changes a flag, and none but STUR changes the memory (10_state
R20, 20_memory R42). -/
def Obligations.FlagAndMemoryWriters : Prop :=
  ∀ (i : Instr) (s t : State), exec i s = .next t →
    (i.opcode ∉ [Opcode.add, Opcode.sub, Opcode.addi, Opcode.subi] → t.flags = s.flags) ∧
    (i.opcode ≠ .stur → t.mem = s.mem)

/-- No step changes the stack pointer, the breakpoint set or the parameters (10_state R14, R23, 00_scope R5). -/
def Obligations.StepLeavesHostState : Prop :=
  ∀ s t : State, step s = .next t → t.sp = s.sp ∧ t.breakpoints = s.breakpoints ∧ t.cfg = s.cfg

/-! ### Memory -/

/-- A read through the host port: the little-endian sum of its bytes, no state changed, and OutOfBounds for
an access that does not lie inside the memory; read8, read32 and read64 read 1, 4 and 8 bytes (20_memory
R44, R46, R48). -/
def Obligations.MemoryRead : Prop :=
  ∀ (s : State) (a : Word),
    (∀ n : Nat, a.toNat + n ≤ s.cfg.memSize →
      Port.read s n a = .ok (∑ i ∈ Finset.range n, (s.byte (a.toNat + i)).toNat * 2 ^ (8 * i))) ∧
    (∀ n : Nat, s.cfg.memSize < a.toNat + n → Port.read s n a = .error .outOfBounds) ∧
    (∀ p : Nat × Command, p ∈ [(1, Command.read8 a), (4, Command.read32 a), (8, Command.read64 a)] →
      (a.toNat + p.1 ≤ s.cfg.memSize →
        Port.apply p.2 s =
          .next (s, .value (∑ i ∈ Finset.range p.1, (s.byte (a.toNat + i)).toNat * 2 ^ (8 * i)))) ∧
      (s.cfg.memSize < a.toNat + p.1 → Port.apply p.2 s = .next (s, .failed .outOfBounds)))

/-- A write through the host port: exactly its bytes change, least significant first, and a rejected write
changes nothing; write8, write32 and write64 write 1, 4 and 8 bytes (20_memory R44, R46, R49). -/
def Obligations.MemoryWrite : Prop :=
  ∀ (s : State) (a : Word) (v : Nat), s.Inv →
    (∀ n : Nat,
      (a.toNat + n ≤ s.cfg.memSize → ∃ t : State, Port.write s n a v = .ok t ∧ WritesBytes s t a n v) ∧
      (s.cfg.memSize < a.toNat + n →
        Port.write s n a v = .error .outOfBounds ∧
        Port.attempt s (Port.write s n a v) = (s, .failed .outOfBounds))) ∧
    (∀ p : Nat × Command, p ∈ [(1, Command.write8 a v), (4, Command.write32 a v), (8, Command.write64 a v)] →
      (a.toNat + p.1 ≤ s.cfg.memSize →
        ∃ t : State, Port.apply p.2 s = .next (t, .done) ∧ WritesBytes s t a p.1 v) ∧
      (s.cfg.memSize < a.toNat + p.1 → Port.apply p.2 s = .next (s, .failed .outOfBounds)))

/-- The bounds check: an access is admitted exactly when it lies inside the memory over natural numbers, so
an address near 2^64 is always rejected; the source's testable form (20_memory R47). -/
def Obligations.BoundsCheck : Prop :=
  ∀ s : State,
    (∀ (a : Word) (n v : Nat),
      ((∃ x : Nat, Port.read s n a = .ok x) ↔ a.toNat + n ≤ s.cfg.memSize) ∧
      ((∃ t : State, Port.write s n a v = .ok t) ↔ a.toNat + n ≤ s.cfg.memSize) ∧
      (¬a.toNat + n ≤ s.cfg.memSize →
        Port.read s n a = .error .outOfBounds ∧ Port.write s n a v = .error .outOfBounds) ∧
      (2 ^ 64 ≤ a.toNat + n → Port.read s n a = .error .outOfBounds)) ∧
    (∀ (a : Word) (n v : Nat), a.toNat = s.cfg.memSize → 0 < n →
      Port.read s n a = .error .outOfBounds ∧ Port.write s n a v = .error .outOfBounds) ∧
    (∀ (a : Word) (v : Nat), a.toNat + 1 = s.cfg.memSize →
      (∃ x : Nat, Port.read s 1 a = .ok x) ∧ ∃ t : State, Port.write s 1 a v = .ok t)

/-- Round trip: a read after a write of one width at one address gives the value, and each byte is the one
little-endian order puts there (20_memory R45). -/
def Obligations.WriteThenRead : Prop :=
  ∀ (s : State) (a : Word) (n v : Nat), s.Inv → n ∈ [1, 4, 8] → a.toNat + n ≤ s.cfg.memSize →
    v < 2 ^ (8 * n) →
    ∃ t : State, Port.write s n a v = .ok t ∧ Port.read t n a = .ok v ∧
      ∀ i : Nat, i < n → Port.read t 1 (a + BitVec.ofNat 64 i) = .ok (v / 2 ^ (8 * i) % 2 ^ 8)

/-- Scenario D: LDUR from the address STUR stored to returns the stored value, for every value, base and
admitted offset; a load into the zero register is discarded (43_load_store R173, the spec's own inference
beyond offset 0). -/
def Obligations.StoreThenLoad : Prop :=
  ∀ (s : State) (rt rt' rn : Reg) (imm : Word), s.Inv →
    (s.reg rn + imm).toNat + 8 ≤ s.cfg.memSize →
    ∃ t u : State, exec (.sturOffset .al rt rn imm) s = .next t ∧
      exec (.ldurOffset .al rt' rn imm) t = .next u ∧ u.reg rt' = if rt' = xzr then 0#64 else s.reg rt

/-- Self-modifying code: a fetch from inside the bytes a STUR stored reads the stored bytes (20_memory
section 5). -/
def Obligations.FetchSeesStore : Prop :=
  ∀ (s : State) (rt rn : Reg) (imm : Word), s.Inv → (s.reg rn + imm).toNat + 8 ≤ s.cfg.memSize →
    ∃ t : State, exec (.sturOffset .al rt rn imm) s = .next t ∧
      ∀ k : Nat, k ≤ 4 →
        ({ t with pc := s.reg rn + imm + BitVec.ofNat 64 k } : State).fetch =
          some ((s.reg rt).extractLsb' (8 * k) 32)

/-! ### The step -/

/-- Stage 0: a Halted machine answers already-halted and changes no state (40_execution_cycle R101). -/
def Obligations.StepWhenHalted : Prop :=
  ∀ s : State, s.running = false → step s = .next { s with result := some .alreadyHalted }

/-- Stage 1: at a breakpoint the step answers breakpoint-hit and changes no state; it precedes the fetch
(40_execution_cycle R102). -/
def Obligations.StepAtBreakpoint : Prop :=
  ∀ s : State, s.running = true → s.pc ∈ s.breakpoints →
    step s = .next { s with result := some .breakpointHit }

/-- Stage 2: the fetch reads the four bytes at the pc, and faults where they do not lie inside the memory
(40_execution_cycle R103). -/
def Obligations.StepFetch : Prop :=
  ∀ s : State,
    (s.pc.toNat + 4 ≤ s.cfg.memSize →
      s.fetch = some (s.byte (s.pc.toNat + 3) ++ s.byte (s.pc.toNat + 2) ++ s.byte (s.pc.toNat + 1) ++
        s.byte s.pc.toNat)) ∧
    (s.running = true → s.pc ∉ s.breakpoints → s.cfg.memSize < s.pc.toNat + 4 →
      step s = .next
        { s with running := false, result := some (.haltedOnFault (.outOfBounds s.pc s.pc 4)) })

/-- A step runs the decoded instruction: when the four bytes at the pc decode to i, the step is exec of i
at that state, with nothing around it (40_execution_cycle R104, R107, R109). -/
def Obligations.StepRunsDecoded : Prop :=
  ∀ (s : State) (i : Instr), s.running = true → s.pc ∉ s.breakpoints → s.pc.toNat + 4 ≤ s.cfg.memSize →
    decode s.cfg.decodeEori (wordOfBytes (s.byte s.pc.toNat) (s.byte (s.pc.toNat + 1))
      (s.byte (s.pc.toNat + 2)) (s.byte (s.pc.toNat + 3))) = .ok i →
    step s = exec i s

/-- The four outcomes: every step answers a next state, never a refusal, the host's step() returns its
outcome, and each outcome has its cause and its effect on the run flag (40_execution_cycle R100, section 1). -/
def Obligations.StepOutcomes : Prop :=
  ∀ s : State, ∃ t : State, step s = .next t ∧ Port.apply .step s = .next (t, .stepped t.result) ∧
    ((t.result = some .alreadyHalted ∧ s.running = false ∧ t.running = false) ∨
     (t.result = some .breakpointHit ∧ s.running = true ∧ s.pc ∈ s.breakpoints ∧ t.running = true) ∨
     (t.result = some .continued ∧ s.running = true ∧ s.pc ∉ s.breakpoints ∧ t.running = true) ∨
     (∃ f : Fault, t.result = some (.haltedOnFault f) ∧ s.running = true ∧ s.pc ∉ s.breakpoints ∧
       t.running = false))

/-- A step that raises a fault changes running and nothing else (40_execution_cycle R108). -/
def Obligations.FaultChangesOnlyRunning : Prop :=
  ∀ (s t : State) (f : Fault), step s = .next t → t.result = some (.haltedOnFault f) → s.Faulted t f

/-- The faults a step raises are exactly these: OutOfBounds by the fetch, by LDUR and by STUR, and
InvalidInstruction by an INVALID word (60_exceptions R231, R232). -/
def Obligations.FaultCauses : Prop :=
  ∀ (s : State) (f : Fault),
    (∃ t : State, step s = .next t ∧ t.result = some (.haltedOnFault f)) ↔
      s.running = true ∧ s.pc ∉ s.breakpoints ∧
      ((s.cfg.memSize < s.pc.toNat + 4 ∧ f = .outOfBounds s.pc s.pc 4) ∨
       (∃ w : InstrWord, s.fetch = some w ∧ (decodeRecord s.cfg.decodeEori w).opcode = .invalid ∧
         f = .invalidInstruction s.pc) ∨
       (∃ (w : InstrWord) (m : Indexing) (rt rn : Reg) (imm : Word), s.fetch = some w ∧
         (decode s.cfg.decodeEori w = .ok (ldurOf m .al rt rn imm) ∨
           decode s.cfg.decodeEori w = .ok (sturOf m .al rt rn imm)) ∧
         s.cfg.memSize < (effectiveAddress m (s.reg rn) imm).toNat + 8 ∧
         f = .outOfBounds s.pc (effectiveAddress m (s.reg rn) imm) 8))

/-- The step is fetch, decode, then the execute stage on the decoded record (40_execution_cycle R113). -/
def Obligations.StepIsExecuteStage : Prop :=
  ∀ (s : State) (w : InstrWord), s.running = true → s.pc ∉ s.breakpoints → s.fetch = some w →
    step s = executeRecord (decodeRecord s.cfg.decodeEori w) s

/-- The execute-stage interface: INVALID first, then mode LITERAL and an inconsistent writeback flag refused,
every other record executed as the instruction that has its values in every field the opcode uses,
whatever its other fields hold; the decoder makes no record that is refused (43_load_store R175, 10_state
R26, R27, 40_execution_cycle R113). That the two refusals do not depend on the opcode is the model's reading
(log 9). -/
def Obligations.ExecuteStageRecords : Prop :=
  (∀ (r : Record) (s : State), r.opcode = .invalid →
    executeRecord r s = .next
      { s with running := false, result := some (.haltedOnFault (.invalidInstruction s.pc)) }) ∧
  (∀ (r : Record) (s : State), r.opcode ≠ .invalid → r.mode = .literal →
    executeRecord r s = .refused .literalMode) ∧
  (∀ (r : Record) (s : State), r.opcode ≠ .invalid → r.mode ≠ .literal →
    ¬(r.writeback = true ↔ r.mode = .preIndex ∨ r.mode = .postIndex) →
    executeRecord r s = .refused .writebackMismatch) ∧
  (∀ (r : Record) (s : State), r.opcode ≠ .invalid → r.mode ≠ .literal →
    (r.writeback = true ↔ r.mode = .preIndex ∨ r.mode = .postIndex) →
    ∃ (i : Instr) (t : State), i.opcode = r.opcode ∧ i.cond = r.cond ∧ SameUsedFields i.toRecord r ∧
      executeRecord r s = exec i s ∧ exec i s = .next t) ∧
  (∀ (i : Instr) (s : State), executeRecord i.toRecord s = exec i s) ∧
  (∀ (e : Bool) (w : InstrWord), (decodeRecord e w).mode ≠ .literal ∧
    ((decodeRecord e w).writeback = true ↔
      (decodeRecord e w).mode = .preIndex ∨ (decodeRecord e w).mode = .postIndex))

/-- An opcode-table word that the decoder reads as i, put where the next step fetches, runs as i (log 13 and
log 3 say what `withFetchWord` changes: the model's own). -/
def Obligations.FetchWordRuns : Prop :=
  ∀ (s : State) (nbits w : Nat) (i : Instr), s.Inv → s.pc.toNat + 4 ≤ s.cfg.memSize →
    decodeTableWord nbits w = some i →
    step (s.withFetchWord nbits w) = exec i (s.withFetchWord nbits w)

/-! ### Invariants -/

/-- Every step keeps the soundness of the state: the memory canonical and inside MEM_SIZE, the breakpoint
list strictly rising, Halted exactly when the last result says so. -/
def Obligations.StepKeepsInvariant : Prop :=
  ∀ s t : State, s.Inv → step s = .next t → t.Inv

/-- Every operation of the host port keeps the soundness of the state and the parameters. -/
def Obligations.HostKeepsInvariant : Prop :=
  ∀ (c : Command) (s t : State) (r : Reply), s.Inv → Port.apply c s = .next (t, r) → t.Inv ∧ t.cfg = s.cfg

/-- The soundness of the state holds at construction, whatever the parameters, and at State.reset. -/
def Obligations.ResetIsSound : Prop :=
  (∀ cfg : Config, (State.construct cfg).Inv) ∧ State.reset.Inv

/-! ### Reset, the run flag, breakpoints, the host port -/

/-- The state after construct and after reset(), field by field, whatever the parameters (10_state R29). -/
def Obligations.StateAfterReset : Prop :=
  (∀ s : State, Port.reset s = State.construct s.cfg) ∧
  (∀ cfg : Config,
    (∀ (i : Nat) (h : i < 31), (State.construct cfg).x[i] = 0#64) ∧
    (State.construct cfg).sp = cfg.spReset ∧ (State.construct cfg).pc = 0#64 ∧
    (State.construct cfg).flags = { n := false, z := false, c := false, v := false } ∧
    (State.construct cfg).running = true ∧ (State.construct cfg).breakpoints = [] ∧
    (∀ a : Nat, (State.construct cfg).byte a = 0#8) ∧ (State.construct cfg).cfg = cfg)

/-- The run flag: only reset() sets it, only a step that ends in a fault clears it, and a breakpoint hit does
not (10_state R22). -/
def Obligations.RunFlagWriters : Prop :=
  (∀ cfg : Config, (State.construct cfg).running = true) ∧
  (∀ s : State, (Port.reset s).running = true) ∧
  (∀ (c : Command) (s t : State) (r : Reply), Port.apply c s = .next (t, r) →
    (s.running = false → t.running = true → c = .reset) ∧
    (s.running = true → t.running = false →
      (c = .step ∨ ∃ k : Nat, c = .run k) ∧ ∃ f : Fault, t.result = some (.haltedOnFault f))) ∧
  (∀ s t : State, step s = .next t → t.result = some .breakpointHit → t.running = true) ∧
  (∀ s : State, s.running = false → step s = .next { s with result := some .alreadyHalted })

/-- After a fault every operation of the host still answers, and step and run answer already-halted without
side effects, until a reset (60_exceptions section 4). -/
def Obligations.HaltedUntilReset : Prop :=
  ∀ (cs : List Command) (s : State), Command.reset ∉ cs → s.running = false →
    ∃ t : State, applyAll cs s = .next t ∧ t.running = false ∧
      step t = .next { t with result := some .alreadyHalted } ∧
      ∀ k : Nat, Port.run (k + 1) t = .next { t with result := some .alreadyHalted }

/-- run ends at the first step whose outcome is not continued, with the state that sequence of steps leaves,
or with its fuel spent, and returns nothing beside that state (40_execution_cycle section 4; the fuel is
log 18). -/
def Obligations.RunEndsAtFirstStop : Prop :=
  ∀ (k : Nat) (s : State), ∃ t : State,
    Port.run k s = .next t ∧ Port.apply (.run k) s = .next (t, .done) ∧
    ∃ n : Nat, n ≤ k ∧ steps n s = .next t ∧ (0 < k → 0 < n) ∧
      (∀ j : Nat, 0 < j → j < n → ∃ u : State, steps j s = .next u ∧ u.result = some .continued) ∧
      (n < k → t.result ≠ some .continued)

/-- The breakpoint set: what set and clear do to its members, idempotent, in any order, emptied by reset,
changed by nothing else, and read at the start of a step (10_state R23). -/
def Obligations.BreakpointSet : Prop :=
  (∀ (s : State) (a b : Word),
    (b ∈ (Port.setBreakpoint s a).breakpoints ↔ b = a ∨ b ∈ s.breakpoints) ∧
    (b ∈ (Port.clearBreakpoint s a).breakpoints ↔ b ≠ a ∧ b ∈ s.breakpoints) ∧
    Port.setBreakpoint (Port.setBreakpoint s a) a = Port.setBreakpoint s a ∧
    Port.clearBreakpoint (Port.clearBreakpoint s a) a = Port.clearBreakpoint s a ∧
    (Port.reset s).breakpoints = []) ∧
  (∀ (s : State) (a b : Word), s.Inv →
    Port.setBreakpoint (Port.setBreakpoint s a) b = Port.setBreakpoint (Port.setBreakpoint s b) a ∧
    (a ∈ s.breakpoints → Port.setBreakpoint s a = s) ∧ (a ∉ s.breakpoints → Port.clearBreakpoint s a = s)) ∧
  (∀ (c : Command) (s t : State) (r : Reply), Port.apply c s = .next (t, r) →
    t.breakpoints ≠ s.breakpoints →
      c = .reset ∨ (∃ a : Word, c = .setBreakpoint a) ∨ ∃ a : Word, c = .clearBreakpoint a) ∧
  (∀ s t : State, s.running = true → step s = .next t →
    (t.result = some .breakpointHit ↔ s.pc ∈ s.breakpoints))

/-- The indexed register port, with its permissive writes and strict reads (10_state R15). -/
def Obligations.RegisterPort : Prop :=
  ∀ (s : State) (v : Word),
    (∀ (i : Nat) (h : i < 31), Port.get s i = .ok s.x[i]) ∧ Port.get s 31 = .ok 0#64 ∧
    (∀ i : Nat, 32 ≤ i → Port.get s i = .error .invalidRegisterIndex ∧
      Port.apply (.get i) s = .next (s, .failed .invalidRegisterIndex)) ∧
    (∀ i j : Nat, i < 31 → j < 31 → Port.get (Port.set s i v) j = if j = i then .ok v else Port.get s j) ∧
    (∀ i : Nat, i < 31 → Port.set s i v = { s with x := (Port.set s i v).x }) ∧
    (∀ i : Nat, 31 ≤ i → Port.set s i v = s ∧ Port.apply (.set i v) s = .next (s, .done))

/-- Reads and writes of a register: the zero register reads 0 and discards writes, every other register reads
what was last written to it (10_state section 2). -/
def Obligations.RegisterFile : Prop :=
  ∀ (s : State) (rd : Reg) (v : Word),
    s.RegsWritten (s.setReg rd v) rd v ∧ s.reg 31#5 = 0#64 ∧ s.setReg 31#5 v = s ∧
    (s.setReg rd v).flags = s.flags ∧ (s.setReg rd v).pc = s.pc ∧ (s.setReg rd v).sp = s.sp ∧
    (s.setReg rd v).mem = s.mem

/-- The dedicated ports of the stack pointer, the pc and the flags: a read answers the field and changes
nothing, a write changes that field alone (10_state section 7). -/
def Obligations.DedicatedPorts : Prop :=
  ∀ (s : State) (v : Word) (f : Flags),
    Port.apply .getSp s = .next (s, .word s.sp) ∧ Port.apply (.setSp v) s = .next ({ s with sp := v }, .done) ∧
    Port.apply .getPc s = .next (s, .word s.pc) ∧ Port.apply (.setPc v) s = .next ({ s with pc := v }, .done) ∧
    Port.apply .getFlags s = .next (s, .flags s.flags) ∧
    Port.apply (.setFlags f) s = .next ({ s with flags := f }, .done)

/-- load_program: the bytes copied in order and the pc at the load address, nothing else changed; all or
nothing where they do not fit (70_reset_and_hazards R265, R266). -/
def Obligations.LoadProgram : Prop :=
  ∀ (s : State) (bytes : List Byte) (a : Word), s.Inv →
    (a.toNat + bytes.length ≤ s.cfg.memSize →
      ∃ t : State, Port.loadProgram s bytes a = .ok t ∧ t.pc = a ∧
        (∀ (i : Nat) (h : i < bytes.length), t.byte (a.toNat + i) = bytes[i]) ∧
        (∀ b : Nat, b < a.toNat ∨ a.toNat + bytes.length ≤ b → t.byte b = s.byte b) ∧
        t = { s with mem := t.mem, pc := a }) ∧
    (s.cfg.memSize < a.toNat + bytes.length →
      Port.loadProgram s bytes a = .error .outOfBounds ∧
      Port.apply (.loadProgram bytes a) s = .next (s, .failed .outOfBounds))
end

