-- ==== Sys2Proof/Laws/Encoding.lean ====
section
/-! SUPPORT. The fields of an encoded word, format by format, a word put together from its fields, and the
immediates that survive their field. -/

namespace Sys2Proof.Laws

/-- A field above the lower part of a concatenation. -/
theorem field_above {v w : Nat} (x : BitVec v) (y : BitVec w) (start len : Nat) (h : w ≤ start) :
    (x ++ y).extractLsb' start len = x.extractLsb' (start - w) len := BitVec.extractLsb'_append_eq_of_le h

/-- A field inside the lower part of a concatenation. -/
theorem field_below {v w : Nat} (x : BitVec v) (y : BitVec w) (start len : Nat) (h : start + len ≤ w) :
    (x ++ y).extractLsb' start len = y.extractLsb' start len := BitVec.extractLsb'_append_eq_of_add_le h

/-- Two neighbouring fields of a word are one field. -/
theorem fields_join (w : InstrWord) (start len₁ len₂ : Nat) :
    w.extractLsb' (start + len₁) len₂ ++ w.extractLsb' start len₁ = w.extractLsb' start (len₂ + len₁) :=
  BitVec.extractLsb'_append_extractLsb'_eq_extractLsb' rfl

/-! ### The fields of each format (30_encoding R75 to R80) -/

theorem encodeR_fields (opc : BitVec 3) (rd rn rm : Reg) (sh : BitVec 6) :
    (encodeR opc rd rn rm sh).extractLsb' 29 3 = opc ∧
    (encodeR opc rd rn rm sh).extractLsb' 26 3 = 0b010#3 ∧
    (encodeR opc rd rn rm sh).extractLsb' 24 2 = 0#2 ∧
    (encodeR opc rd rn rm sh).extractLsb' 22 2 = sh.setWidth 2 ∧
    (encodeR opc rd rn rm sh).extractLsb' 21 1 = 0#1 ∧
    (encodeR opc rd rn rm sh).extractLsb' 16 5 = rm ∧
    (encodeR opc rd rn rm sh).extractLsb' 10 6 = 0#6 ∧
    (encodeR opc rd rn rm sh).extractLsb' 5 5 = rn ∧
    (encodeR opc rd rn rm sh).extractLsb' 0 5 = rd := by
  unfold encodeR
  refine ⟨?_, ?_, ?_, ?_, ?_, ?_, ?_, ?_, ?_⟩
  · rw [field_above _ _ _ _ (by decide),
      field_above _ _ _ _ (by decide),
      field_above _ _ _ _ (by decide),
      field_above _ _ _ _ (by decide),
      field_above _ _ _ _ (by decide),
      field_above _ _ _ _ (by decide),
      field_above _ _ _ _ (by decide),
      field_above _ _ _ _ (by decide)]
    exact BitVec.extractLsb'_eq_self
  · rw [field_above _ _ _ _ (by decide),
      field_above _ _ _ _ (by decide),
      field_above _ _ _ _ (by decide),
      field_above _ _ _ _ (by decide),
      field_above _ _ _ _ (by decide),
      field_above _ _ _ _ (by decide),
      field_above _ _ _ _ (by decide),
      field_below _ _ _ _ (by decide)]
    exact BitVec.extractLsb'_eq_self
  · rw [field_above _ _ _ _ (by decide),
      field_above _ _ _ _ (by decide),
      field_above _ _ _ _ (by decide),
      field_above _ _ _ _ (by decide),
      field_above _ _ _ _ (by decide),
      field_above _ _ _ _ (by decide),
      field_below _ _ _ _ (by decide)]
    exact BitVec.extractLsb'_eq_self
  · rw [field_above _ _ _ _ (by decide),
      field_above _ _ _ _ (by decide),
      field_above _ _ _ _ (by decide),
      field_above _ _ _ _ (by decide),
      field_above _ _ _ _ (by decide),
      field_below _ _ _ _ (by decide)]
    exact BitVec.extractLsb'_eq_self
  · rw [field_above _ _ _ _ (by decide),
      field_above _ _ _ _ (by decide),
      field_above _ _ _ _ (by decide),
      field_above _ _ _ _ (by decide),
      field_below _ _ _ _ (by decide)]
    exact BitVec.extractLsb'_eq_self
  · rw [field_above _ _ _ _ (by decide),
      field_above _ _ _ _ (by decide),
      field_above _ _ _ _ (by decide),
      field_below _ _ _ _ (by decide)]
    exact BitVec.extractLsb'_eq_self
  · rw [field_above _ _ _ _ (by decide),
      field_above _ _ _ _ (by decide),
      field_below _ _ _ _ (by decide)]
    exact BitVec.extractLsb'_eq_self
  · rw [field_above _ _ _ _ (by decide),
      field_below _ _ _ _ (by decide)]
    exact BitVec.extractLsb'_eq_self
  · rw [field_below _ _ _ _ (by decide)]
    exact BitVec.extractLsb'_eq_self

/-- A word is the concatenation of its fields in this format. -/
theorem word_of_fieldsR (w : InstrWord) :
    w.extractLsb' 29 3 ++ w.extractLsb' 26 3 ++ w.extractLsb' 24 2 ++ w.extractLsb' 22 2 ++ w.extractLsb' 21 1 ++ w.extractLsb' 16 5 ++ w.extractLsb' 10 6 ++ w.extractLsb' 5 5 ++ w.extractLsb' 0 5 = w := by
  rw [fields_join w 26 3 3,
    fields_join w 24 2 6,
    fields_join w 22 2 8,
    fields_join w 21 1 10,
    fields_join w 16 5 11,
    fields_join w 10 6 16,
    fields_join w 5 5 22,
    fields_join w 0 5 27]
  exact BitVec.extractLsb'_eq_self

theorem encodeI_fields (opc : BitVec 3) (rd rn : Reg) (imm : Word) :
    (encodeI opc rd rn imm).extractLsb' 29 3 = opc ∧
    (encodeI opc rd rn imm).extractLsb' 26 3 = 0b100#3 ∧
    (encodeI opc rd rn imm).extractLsb' 22 4 = 0#4 ∧
    (encodeI opc rd rn imm).extractLsb' 10 12 = imm.setWidth 12 ∧
    (encodeI opc rd rn imm).extractLsb' 5 5 = rn ∧
    (encodeI opc rd rn imm).extractLsb' 0 5 = rd := by
  unfold encodeI
  refine ⟨?_, ?_, ?_, ?_, ?_, ?_⟩
  · rw [field_above _ _ _ _ (by decide),
      field_above _ _ _ _ (by decide),
      field_above _ _ _ _ (by decide),
      field_above _ _ _ _ (by decide),
      field_above _ _ _ _ (by decide)]
    exact BitVec.extractLsb'_eq_self
  · rw [field_above _ _ _ _ (by decide),
      field_above _ _ _ _ (by decide),
      field_above _ _ _ _ (by decide),
      field_above _ _ _ _ (by decide),
      field_below _ _ _ _ (by decide)]
    exact BitVec.extractLsb'_eq_self
  · rw [field_above _ _ _ _ (by decide),
      field_above _ _ _ _ (by decide),
      field_above _ _ _ _ (by decide),
      field_below _ _ _ _ (by decide)]
    exact BitVec.extractLsb'_eq_self
  · rw [field_above _ _ _ _ (by decide),
      field_above _ _ _ _ (by decide),
      field_below _ _ _ _ (by decide)]
    exact BitVec.extractLsb'_eq_self
  · rw [field_above _ _ _ _ (by decide),
      field_below _ _ _ _ (by decide)]
    exact BitVec.extractLsb'_eq_self
  · rw [field_below _ _ _ _ (by decide)]
    exact BitVec.extractLsb'_eq_self

/-- A word is the concatenation of its fields in this format. -/
theorem word_of_fieldsI (w : InstrWord) :
    w.extractLsb' 29 3 ++ w.extractLsb' 26 3 ++ w.extractLsb' 22 4 ++ w.extractLsb' 10 12 ++ w.extractLsb' 5 5 ++ w.extractLsb' 0 5 = w := by
  rw [fields_join w 26 3 3,
    fields_join w 22 4 6,
    fields_join w 10 12 10,
    fields_join w 5 5 22,
    fields_join w 0 5 27]
  exact BitVec.extractLsb'_eq_self

theorem encodeD_fields (opc : BitVec 3) (rt rn : Reg) (imm : Word) :
    (encodeD opc rt rn imm).extractLsb' 29 3 = opc ∧
    (encodeD opc rt rn imm).extractLsb' 26 3 = 0b110#3 ∧
    (encodeD opc rt rn imm).extractLsb' 10 16 = imm.setWidth 16 ∧
    (encodeD opc rt rn imm).extractLsb' 5 5 = rn ∧
    (encodeD opc rt rn imm).extractLsb' 0 5 = rt := by
  unfold encodeD
  refine ⟨?_, ?_, ?_, ?_, ?_⟩
  · rw [field_above _ _ _ _ (by decide),
      field_above _ _ _ _ (by decide),
      field_above _ _ _ _ (by decide),
      field_above _ _ _ _ (by decide)]
    exact BitVec.extractLsb'_eq_self
  · rw [field_above _ _ _ _ (by decide),
      field_above _ _ _ _ (by decide),
      field_above _ _ _ _ (by decide),
      field_below _ _ _ _ (by decide)]
    exact BitVec.extractLsb'_eq_self
  · rw [field_above _ _ _ _ (by decide),
      field_above _ _ _ _ (by decide),
      field_below _ _ _ _ (by decide)]
    exact BitVec.extractLsb'_eq_self
  · rw [field_above _ _ _ _ (by decide),
      field_below _ _ _ _ (by decide)]
    exact BitVec.extractLsb'_eq_self
  · rw [field_below _ _ _ _ (by decide)]
    exact BitVec.extractLsb'_eq_self

/-- A word is the concatenation of its fields in this format. -/
theorem word_of_fieldsD (w : InstrWord) :
    w.extractLsb' 29 3 ++ w.extractLsb' 26 3 ++ w.extractLsb' 10 16 ++ w.extractLsb' 5 5 ++ w.extractLsb' 0 5 = w := by
  rw [fields_join w 26 3 3,
    fields_join w 10 16 6,
    fields_join w 5 5 22,
    fields_join w 0 5 27]
  exact BitVec.extractLsb'_eq_self

theorem encodeB_fields (opc : BitVec 3) (imm : Word) :
    (encodeB opc imm).extractLsb' 29 3 = opc ∧
    (encodeB opc imm).extractLsb' 26 3 = 0b101#3 ∧
    (encodeB opc imm).extractLsb' 0 26 = imm.extractLsb' 2 26 := by
  unfold encodeB
  refine ⟨?_, ?_, ?_⟩
  · rw [field_above _ _ _ _ (by decide),
      field_above _ _ _ _ (by decide)]
    exact BitVec.extractLsb'_eq_self
  · rw [field_above _ _ _ _ (by decide),
      field_below _ _ _ _ (by decide)]
    exact BitVec.extractLsb'_eq_self
  · rw [field_below _ _ _ _ (by decide)]
    exact BitVec.extractLsb'_eq_self

/-- A word is the concatenation of its fields in this format. -/
theorem word_of_fieldsB (w : InstrWord) :
    w.extractLsb' 29 3 ++ w.extractLsb' 26 3 ++ w.extractLsb' 0 26 = w := by
  rw [fields_join w 26 3 3,
    fields_join w 0 26 6]
  exact BitVec.extractLsb'_eq_self

theorem encodeBR_fields (opc : BitVec 3) (rn : Reg) :
    (encodeBR opc rn).extractLsb' 29 3 = opc ∧
    (encodeBR opc rn).extractLsb' 26 3 = 0b101#3 ∧
    (encodeBR opc rn).extractLsb' 10 16 = 0#16 ∧
    (encodeBR opc rn).extractLsb' 5 5 = rn ∧
    (encodeBR opc rn).extractLsb' 0 5 = 0#5 := by
  unfold encodeBR
  refine ⟨?_, ?_, ?_, ?_, ?_⟩
  · rw [field_above _ _ _ _ (by decide),
      field_above _ _ _ _ (by decide),
      field_above _ _ _ _ (by decide),
      field_above _ _ _ _ (by decide)]
    exact BitVec.extractLsb'_eq_self
  · rw [field_above _ _ _ _ (by decide),
      field_above _ _ _ _ (by decide),
      field_above _ _ _ _ (by decide),
      field_below _ _ _ _ (by decide)]
    exact BitVec.extractLsb'_eq_self
  · rw [field_above _ _ _ _ (by decide),
      field_above _ _ _ _ (by decide),
      field_below _ _ _ _ (by decide)]
    exact BitVec.extractLsb'_eq_self
  · rw [field_above _ _ _ _ (by decide),
      field_below _ _ _ _ (by decide)]
    exact BitVec.extractLsb'_eq_self
  · rw [field_below _ _ _ _ (by decide)]
    exact BitVec.extractLsb'_eq_self

/-- A word is the concatenation of its fields in this format. -/
theorem word_of_fieldsBR (w : InstrWord) :
    w.extractLsb' 29 3 ++ w.extractLsb' 26 3 ++ w.extractLsb' 10 16 ++ w.extractLsb' 5 5 ++ w.extractLsb' 0 5 = w := by
  rw [fields_join w 26 3 3,
    fields_join w 10 16 6,
    fields_join w 5 5 22,
    fields_join w 0 5 27]
  exact BitVec.extractLsb'_eq_self

theorem encodeCB_fields (opc : BitVec 3) (rt : Reg) (imm : Word) :
    (encodeCB opc rt imm).extractLsb' 29 3 = opc ∧
    (encodeCB opc rt imm).extractLsb' 26 3 = 0b101#3 ∧
    (encodeCB opc rt imm).extractLsb' 24 2 = 0#2 ∧
    (encodeCB opc rt imm).extractLsb' 5 19 = imm.extractLsb' 2 19 ∧
    (encodeCB opc rt imm).extractLsb' 0 5 = rt := by
  unfold encodeCB
  refine ⟨?_, ?_, ?_, ?_, ?_⟩
  · rw [field_above _ _ _ _ (by decide),
      field_above _ _ _ _ (by decide),
      field_above _ _ _ _ (by decide),
      field_above _ _ _ _ (by decide)]
    exact BitVec.extractLsb'_eq_self
  · rw [field_above _ _ _ _ (by decide),
      field_above _ _ _ _ (by decide),
      field_above _ _ _ _ (by decide),
      field_below _ _ _ _ (by decide)]
    exact BitVec.extractLsb'_eq_self
  · rw [field_above _ _ _ _ (by decide),
      field_above _ _ _ _ (by decide),
      field_below _ _ _ _ (by decide)]
    exact BitVec.extractLsb'_eq_self
  · rw [field_above _ _ _ _ (by decide),
      field_below _ _ _ _ (by decide)]
    exact BitVec.extractLsb'_eq_self
  · rw [field_below _ _ _ _ (by decide)]
    exact BitVec.extractLsb'_eq_self

/-- A word is the concatenation of its fields in this format. -/
theorem word_of_fieldsCB (w : InstrWord) :
    w.extractLsb' 29 3 ++ w.extractLsb' 26 3 ++ w.extractLsb' 24 2 ++ w.extractLsb' 5 19 ++ w.extractLsb' 0 5 = w := by
  rw [fields_join w 26 3 3,
    fields_join w 24 2 6,
    fields_join w 5 19 8,
    fields_join w 0 5 27]
  exact BitVec.extractLsb'_eq_self

/-! ### The immediates (30_encoding R83, R85, R86) -/

/-- A 12-bit immediate in its range survives its field. -/
theorem signExtend_imm12 {imm : Word} (h : encodableImm12 imm = true) :
    (imm.setWidth 12).signExtend 64 = imm := by
  have h := of_decide_eq_true h
  refine BitVec.eq_of_toInt_eq ?_
  rw [BitVec.toInt_signExtend_of_le (by decide)]
  simp only [BitVec.toInt_eq_toNat_cond, BitVec.toNat_setWidth] at h ⊢
  split at h <;> split <;> omega

/-- A 16-bit offset in its range survives its field. -/
theorem signExtend_imm16 {imm : Word} (h : encodableImm16 imm = true) :
    (imm.setWidth 16).signExtend 64 = imm := by
  have h := of_decide_eq_true h
  refine BitVec.eq_of_toInt_eq ?_
  rw [BitVec.toInt_signExtend_of_le (by decide)]
  simp only [BitVec.toInt_eq_toNat_cond, BitVec.toNat_setWidth] at h ⊢
  split at h <;> split <;> omega

/-- Four times a sign-extended field of at most 61 bits, as an integer. -/
theorem toInt_scaled {n : Nat} (x : BitVec n) (h : n ≤ 61) : (4#64 * x.signExtend 64).toInt = 4 * x.toInt := by
  have h1 := BitVec.le_two_mul_toInt (x := x)
  have h2 := BitVec.two_mul_toInt_lt (x := x)
  have hp : (2 : Int) ^ n ≤ 2 ^ 61 := pow_le_pow_right₀ (by decide) h
  rw [BitVec.toInt_mul, BitVec.toInt_signExtend_of_le (by omega), show (4#64).toInt = 4 by decide]
  apply Int.bmod_eq_of_le <;> omega

/-- A 26-bit word offset in its range survives its field. -/
theorem scaled_imm26 {imm : Word} (h : encodableImm26 imm = true) :
    4#64 * (imm.extractLsb' 2 26).signExtend 64 = imm := by
  have h := of_decide_eq_true h
  refine BitVec.eq_of_toInt_eq ?_
  rw [toInt_scaled _ (by decide)]
  simp only [BitVec.toInt_eq_toNat_cond, BitVec.extractLsb'_toNat, Nat.shiftRight_eq_div_pow] at h ⊢
  split at h <;> split <;> omega

/-- A 19-bit word offset in its range survives its field. -/
theorem scaled_imm19 {imm : Word} (h : encodableImm19 imm = true) :
    4#64 * (imm.extractLsb' 2 19).signExtend 64 = imm := by
  have h := of_decide_eq_true h
  refine BitVec.eq_of_toInt_eq ?_
  rw [toInt_scaled _ (by decide)]
  simp only [BitVec.toInt_eq_toNat_cond, BitVec.extractLsb'_toNat, Nat.shiftRight_eq_div_pow] at h ⊢
  split at h <;> split <;> omega

/-- The low bits of a sign-extended field are the field. -/
theorem setWidth_signExtend {n : Nat} (x : BitVec n) (h : n ≤ 64) : (x.signExtend 64).setWidth n = x := by
  ext i hi
  have h64 : i < 64 := by omega
  simp [BitVec.getElem_signExtend, hi, h64]

/-- The word offset of a scaled 26-bit field is the field. -/
theorem extract_scaled26 (x : BitVec 26) : (4#64 * x.signExtend 64).extractLsb' 2 26 = x := by
  have h := congrArg BitVec.toNat (setWidth_signExtend x (by decide))
  refine BitVec.eq_of_toNat_eq ?_
  simp only [BitVec.toNat_setWidth, BitVec.extractLsb'_toNat, BitVec.toNat_mul, BitVec.toNat_ofNat,
    Nat.shiftRight_eq_div_pow] at h ⊢
  omega

/-- The word offset of a scaled 19-bit field is the field. -/
theorem extract_scaled19 (x : BitVec 19) : (4#64 * x.signExtend 64).extractLsb' 2 19 = x := by
  have h := congrArg BitVec.toNat (setWidth_signExtend x (by decide))
  refine BitVec.eq_of_toNat_eq ?_
  simp only [BitVec.toNat_setWidth, BitVec.extractLsb'_toNat, BitVec.toNat_mul, BitVec.toNat_ofNat,
    Nat.shiftRight_eq_div_pow] at h ⊢
  omega

end Sys2Proof.Laws
end

