-- ==== Sys2Proof/Laws/Memory.lean ====
section
/-! SUPPORT. The memory: read after write, the canonical form kept by every memory operation, and equal
reads of canonical memories being equal memories. -/

namespace Sys2Proof.Machine.Memory

@[simp] theorem byte_nil (a : Nat) : byte [] a = 0#8 := rfl

theorem byte_cons (k : Nat) (v : Byte) (m : List Host.Cell) (a : Nat) :
    byte ((k, v) :: m) a = if k = a then v else byte m a := rfl

/-- An address below every listed one reads as an unlisted address. -/
theorem byte_below {m : List Host.Cell} {a : Nat} (h : ∀ c ∈ m, a < c.1) : byte m a = 0#8 := by
  induction m with
  | nil => rfl
  | cons c m ih =>
    obtain ⟨k, v⟩ := c
    have hk : a < k := h (k, v) (by simp)
    rw [byte_cons, if_neg (by omega), ih fun c hc => h c (by simp [hc])]

/-- Putting a cell in front: it reads as the value, whether or not the value is listed, provided the
address is below every listed one. -/
theorem byte_consCell {m : List Host.Cell} {a : Nat} (v : Byte) (h : ∀ c ∈ m, a < c.1) (b : Nat) :
    byte (Memory.cons a v m) b = if a = b then v else byte m b := by
  unfold Memory.cons
  split
  · next hv =>
    by_cases hab : a = b
    · subst hab; simp [byte_below h, hv, unlisted]
    · simp [hab]
  · rfl

/-- In a canonical memory every later cell is above the first. -/
theorem wf_cons_iff {k : Nat} {v : Byte} {m : List Host.Cell} :
    Memory.wf ((k, v) :: m) ↔ (∀ c ∈ m, k < c.1) ∧ v ≠ 0#8 ∧ Memory.wf m := by
  simp only [Memory.wf, List.pairwise_cons, List.forall_mem_cons]
  tauto

/-- The addresses of `Memory.cons`. -/
theorem mem_consCell {m : List Host.Cell} {a : Nat} {v : Byte} {c : Host.Cell} (h : c ∈ Memory.cons a v m) :
    c = (a, v) ∨ c ∈ m := by
  unfold Memory.cons at h
  split at h
  · exact .inr h
  · simpa using h

theorem wf_consCell {m : List Host.Cell} {a : Nat} {v : Byte} (hm : Memory.wf m) (h : ∀ c ∈ m, a < c.1) :
    Memory.wf (Memory.cons a v m) := by
  unfold Memory.cons
  split
  · exact hm
  · next hv => exact wf_cons_iff.mpr ⟨h, hv, hm⟩

/-- The cells of `setByte` are the old ones and the new one. -/
theorem mem_setByte {m : List Host.Cell} {a : Nat} {v : Byte} {c : Host.Cell} (h : c ∈ setByte m a v) :
    c.1 = a ∨ c ∈ m := by
  induction m with
  | nil => rcases mem_consCell h with rfl | h <;> simp_all
  | cons d m ih =>
    obtain ⟨k, u⟩ := d
    simp only [setByte] at h
    split at h
    · rcases mem_consCell h with rfl | h
      · simp
      · exact .inr h
    · split at h
      · rcases mem_consCell h with rfl | h
        · simp
        · exact .inr (by simp [h])
      · rcases List.mem_cons.mp h with rfl | h
        · exact .inr (by simp)
        · rcases ih h with h | h
          · exact .inl h
          · exact .inr (by simp [h])

/-- A write keeps the canonical form. -/
theorem wf_setByte {m : List Host.Cell} (hm : Memory.wf m) (a : Nat) (v : Byte) : Memory.wf (setByte m a v) := by
  induction m with
  | nil => exact wf_consCell hm (by simp)
  | cons d m ih =>
    obtain ⟨k, u⟩ := d
    obtain ⟨hk, hu, hm'⟩ := wf_cons_iff.mp hm
    simp only [setByte]
    split
    · next h =>
      refine wf_consCell hm fun c hc => ?_
      rcases List.mem_cons.mp hc with rfl | hc
      · exact h
      · have := hk c hc; omega
    · split
      · next h => subst h; exact wf_consCell hm' hk
      · refine wf_cons_iff.mpr ⟨fun c hc => ?_, hu, ih hm'⟩
        rcases mem_setByte hc with h | h
        · omega
        · exact hk c h

/-- A read after a write: the written address gives the value, every other address what it gave. -/
theorem byte_setByte {m : List Host.Cell} (hm : Memory.wf m) (a : Nat) (v : Byte) (b : Nat) :
    byte (setByte m a v) b = if a = b then v else byte m b := by
  induction m with
  | nil => exact byte_consCell v (by simp) b
  | cons d m ih =>
    obtain ⟨k, u⟩ := d
    obtain ⟨hk, -, hm'⟩ := wf_cons_iff.mp hm
    simp only [setByte]
    split
    · next h =>
      refine byte_consCell v (fun c hc => ?_) b
      rcases List.mem_cons.mp hc with rfl | hc
      · exact h
      · have := hk c hc; omega
    · split
      · next h =>
        subst h
        rw [byte_consCell v hk, byte_cons]
        split <;> rfl
      · next h1 h2 =>
        rw [byte_cons, byte_cons, ih hm']
        by_cases hkb : k = b
        · simp [hkb, show a ≠ b by omega]
        · simp [hkb]

/-- A bulk write keeps the canonical form. -/
theorem wf_setBytes {m : List Host.Cell} (hm : Memory.wf m) (a : Nat) (bs : List Byte) :
    Memory.wf (setBytes m a bs) := by
  induction bs generalizing m a with
  | nil => exact hm
  | cons v bs ih => exact ih (wf_setByte hm a v) (a + 1)

/-- The cells of a bulk write lie in the written range or were there before. -/
theorem mem_setBytes {m : List Host.Cell} {a : Nat} {bs : List Byte} {c : Host.Cell}
    (h : c ∈ setBytes m a bs) : (a ≤ c.1 ∧ c.1 < a + bs.length) ∨ c ∈ m := by
  induction bs generalizing m a with
  | nil => exact .inr h
  | cons v bs ih =>
    rcases ih h with h | h
    · exact .inl ⟨by omega, by simp; omega⟩
    · rcases mem_setByte h with h | h
      · exact .inl ⟨by omega, by simp; omega⟩
      · exact .inr h

/-- A read outside the range of a bulk write. -/
theorem byte_setBytes_outside {m : List Host.Cell} (hm : Memory.wf m) (a : Nat) (bs : List Byte) (b : Nat)
    (h : b < a ∨ a + bs.length ≤ b) : byte (setBytes m a bs) b = byte m b := by
  induction bs generalizing m a with
  | nil => rfl
  | cons v bs ih =>
    simp only [List.length_cons] at h
    rw [setBytes, ih (wf_setByte hm a v) (a + 1) (by omega), byte_setByte hm, if_neg (by omega)]

/-- A read inside the range of a bulk write gives the byte of that place. -/
theorem byte_setBytes_inside {m : List Host.Cell} (hm : Memory.wf m) (a : Nat) (bs : List Byte) (i : Nat)
    (h : i < bs.length) : byte (setBytes m a bs) (a + i) = bs[i] := by
  induction bs generalizing m a i with
  | nil => simp at h
  | cons v bs ih =>
    cases i with
    | zero =>
      rw [setBytes, byte_setBytes_outside (wf_setByte hm a v) _ _ _ (by omega), byte_setByte hm]
      simp
    | succ i =>
      rw [setBytes, show a + (i + 1) = a + 1 + i by omega,
        ih (wf_setByte hm a v) (a + 1) i (by simpa using h)]
      simp

@[simp] theorem bytes_length (m : List Host.Cell) (a n : Nat) : (bytes m a n).length = n := by
  induction n generalizing a with
  | zero => rfl
  | succ n ih => simp [bytes, ih]

/-- The i-th byte of a range. -/
theorem bytes_getElem (m : List Host.Cell) (a n i : Nat) (h : i < (bytes m a n).length) :
    (bytes m a n)[i] = byte m (a + i) := by
  induction n generalizing a i with
  | zero => simp [bytes] at h
  | succ n ih =>
    cases i with
    | zero => simp [bytes]
    | succ i => simp only [bytes, List.getElem_cons_succ, ih]; congr 1; omega

/-- Reading back the range of a bulk write. -/
theorem bytes_setBytes {m : List Host.Cell} (hm : Memory.wf m) (a : Nat) (bs : List Byte) :
    bytes (setBytes m a bs) a bs.length = bs := by
  refine List.ext_getElem (by simp) fun i h1 h2 => ?_
  rw [bytes_getElem, byte_setBytes_inside hm a bs i h2]

/-- Reading a range that a bulk write does not touch. -/
theorem bytes_setBytes_outside {m : List Host.Cell} (hm : Memory.wf m) (a : Nat) (bs : List Byte) (b n : Nat)
    (h : b + n ≤ a ∨ a + bs.length ≤ b) : bytes (setBytes m a bs) b n = bytes m b n := by
  refine List.ext_getElem (by simp) fun i h1 h2 => ?_
  rw [bytes_getElem, bytes_getElem, byte_setBytes_outside hm]
  simp only [bytes_length] at h1
  omega

/-- Canonical memories that read the same at every address are one list. -/
theorem ext_of_wf {m m' : List Host.Cell} (hm : Memory.wf m) (hm' : Memory.wf m')
    (h : ∀ a, byte m a = byte m' a) : m = m' := by
  induction m generalizing m' with
  | nil =>
    cases m' with
    | nil => rfl
    | cons c m' =>
      obtain ⟨k, v⟩ := c
      have := h k
      simp only [byte_nil, byte_cons, if_true] at this
      exact absurd this.symm (wf_cons_iff.mp hm').2.1
  | cons c m ih =>
    obtain ⟨k, v⟩ := c
    obtain ⟨hk, hv, hmt⟩ := wf_cons_iff.mp hm
    cases m' with
    | nil =>
      have := h k
      simp only [byte_nil, byte_cons, if_true] at this
      exact absurd this hv
    | cons c' m' =>
      obtain ⟨k', v'⟩ := c'
      obtain ⟨hk', hv', hmt'⟩ := wf_cons_iff.mp hm'
      have hkk : k = k' := by
        rcases Nat.lt_trichotomy k k' with hlt | heq | hgt
        · have := h k
          rw [byte_cons, if_pos rfl, byte_cons, if_neg (by omega),
            byte_below fun c hc => by have := hk' c hc; omega] at this
          exact absurd this hv
        · exact heq
        · have := h k'
          rw [byte_cons, if_neg (by omega), byte_below fun c hc => by have := hk c hc; omega,
            byte_cons, if_pos rfl] at this
          exact absurd this.symm hv'
      subst hkk
      have hvv : v = v' := by simpa [byte_cons] using h k
      subst hvv
      congr 1
      refine ih hmt hmt' fun a => ?_
      by_cases hka : k = a
      · subst hka; rw [byte_below hk, byte_below hk']
      · simpa [byte_cons, hka] using h a

end Sys2Proof.Machine.Memory

namespace Sys2Proof.Machine

@[simp] theorem leBytes_length (n v : Nat) : (leBytes n v).length = n := by
  induction n generalizing v with
  | zero => rfl
  | succ n ih => simp [leBytes, ih]

/-- Writing n bytes and reading their value gives the low 8·n bits (20_memory R44, R45). -/
theorem leValue_leBytes (n v : Nat) : leValue (leBytes n v) = v % 2 ^ (8 * n) := by
  induction n generalizing v with
  | zero => simp [leValue, leBytes, Nat.mod_one]
  | succ n ih =>
    rw [leBytes, leValue, ih, show 8 * (n + 1) = 8 + 8 * n by ring, Nat.pow_add, Nat.mod_mul]
    simp

/-- The i-th byte of a value (20_memory R44). -/
theorem leBytes_getElem (n v i : Nat) (h : i < (leBytes n v).length) :
    (leBytes n v)[i] = BitVec.ofNat 8 (v / 2 ^ (8 * i)) := by
  induction n generalizing v i with
  | zero => simp [leBytes] at h
  | succ n ih =>
    cases i with
    | zero => simp [leBytes]
    | succ i =>
      simp only [leBytes, List.getElem_cons_succ, ih]
      rw [Nat.div_div_eq_div_mul, ← Nat.pow_add, show 8 + 8 * i = 8 * (i + 1) by ring]

/-- The value of n bytes is below 2^(8·n). -/
theorem leValue_lt (bs : List Byte) : leValue bs < 2 ^ (8 * bs.length) := by
  induction bs with
  | nil => simp [leValue]
  | cons v bs ih =>
    have := v.isLt
    rw [leValue, List.length_cons, show 8 * (bs.length + 1) = 8 + 8 * bs.length by ring, Nat.pow_add]
    omega

/-- The i-th byte of the value of some bytes (20_memory R44). -/
theorem leValue_div (bs : List Byte) (i : Nat) (h : i < bs.length) :
    BitVec.ofNat 8 (leValue bs / 2 ^ (8 * i)) = bs[i] := by
  induction bs generalizing i with
  | nil => simp at h
  | cons v bs ih =>
    have hv := v.isLt
    cases i with
    | zero =>
      refine BitVec.eq_of_toNat_eq ?_
      simp only [leValue, BitVec.toNat_ofNat, List.getElem_cons_zero]
      omega
    | succ i =>
      have hdiv : leValue (v :: bs) / 2 ^ (8 * (i + 1)) = leValue bs / 2 ^ (8 * i) := by
        rw [show 8 * (i + 1) = 8 + 8 * i by ring, Nat.pow_add, ← Nat.div_div_eq_div_mul, leValue]
        congr 1
        omega
      rw [hdiv, ih i (by simpa using h)]
      simp

end Sys2Proof.Machine
end

