-- ==== Sys2Proof/Laws/State.lean ====
section
/-! SUPPORT. One lemma per field per update of the state, and the reads after each update, so that no proof
unfolds a record update. -/

namespace Sys2Proof.Machine.State

@[simp] theorem setFlags_cfg (s : State) (f : Flags) : (s.setFlags f).cfg = s.cfg := rfl
@[simp] theorem setFlags_x (s : State) (f : Flags) : (s.setFlags f).x = s.x := rfl
@[simp] theorem setFlags_sp (s : State) (f : Flags) : (s.setFlags f).sp = s.sp := rfl
@[simp] theorem setFlags_pc (s : State) (f : Flags) : (s.setFlags f).pc = s.pc := rfl
@[simp] theorem setFlags_flags (s : State) (f : Flags) : (s.setFlags f).flags = f := rfl
@[simp] theorem setFlags_running (s : State) (f : Flags) : (s.setFlags f).running = s.running := rfl
@[simp] theorem setFlags_breakpoints (s : State) (f : Flags) : (s.setFlags f).breakpoints = s.breakpoints := rfl
@[simp] theorem setFlags_mem (s : State) (f : Flags) : (s.setFlags f).mem = s.mem := rfl
@[simp] theorem setFlags_result (s : State) (f : Flags) : (s.setFlags f).result = s.result := rfl

@[simp] theorem retire_cfg (s : State) (a : Word) : (s.retire a).cfg = s.cfg := rfl
@[simp] theorem retire_x (s : State) (a : Word) : (s.retire a).x = s.x := rfl
@[simp] theorem retire_sp (s : State) (a : Word) : (s.retire a).sp = s.sp := rfl
@[simp] theorem retire_pc (s : State) (a : Word) : (s.retire a).pc = a := rfl
@[simp] theorem retire_flags (s : State) (a : Word) : (s.retire a).flags = s.flags := rfl
@[simp] theorem retire_running (s : State) (a : Word) : (s.retire a).running = s.running := rfl
@[simp] theorem retire_breakpoints (s : State) (a : Word) : (s.retire a).breakpoints = s.breakpoints := rfl
@[simp] theorem retire_mem (s : State) (a : Word) : (s.retire a).mem = s.mem := rfl
@[simp] theorem retire_result (s : State) (a : Word) : (s.retire a).result = some .continued := rfl

@[simp] theorem report_cfg (s : State) (r : StepResult) : (s.report r).cfg = s.cfg := rfl
@[simp] theorem report_x (s : State) (r : StepResult) : (s.report r).x = s.x := rfl
@[simp] theorem report_sp (s : State) (r : StepResult) : (s.report r).sp = s.sp := rfl
@[simp] theorem report_pc (s : State) (r : StepResult) : (s.report r).pc = s.pc := rfl
@[simp] theorem report_flags (s : State) (r : StepResult) : (s.report r).flags = s.flags := rfl
@[simp] theorem report_running (s : State) (r : StepResult) : (s.report r).running = s.running := rfl
@[simp] theorem report_breakpoints (s : State) (r : StepResult) : (s.report r).breakpoints = s.breakpoints := rfl
@[simp] theorem report_mem (s : State) (r : StepResult) : (s.report r).mem = s.mem := rfl
@[simp] theorem report_result (s : State) (r : StepResult) : (s.report r).result = some r := rfl

@[simp] theorem raise_cfg (s : State) (f : Fault) : (s.raise f).cfg = s.cfg := rfl
@[simp] theorem raise_x (s : State) (f : Fault) : (s.raise f).x = s.x := rfl
@[simp] theorem raise_sp (s : State) (f : Fault) : (s.raise f).sp = s.sp := rfl
@[simp] theorem raise_pc (s : State) (f : Fault) : (s.raise f).pc = s.pc := rfl
@[simp] theorem raise_flags (s : State) (f : Fault) : (s.raise f).flags = s.flags := rfl
@[simp] theorem raise_running (s : State) (f : Fault) : (s.raise f).running = false := rfl
@[simp] theorem raise_breakpoints (s : State) (f : Fault) : (s.raise f).breakpoints = s.breakpoints := rfl
@[simp] theorem raise_mem (s : State) (f : Fault) : (s.raise f).mem = s.mem := rfl
@[simp] theorem raise_result (s : State) (f : Fault) : (s.raise f).result = some (.haltedOnFault f) := rfl

@[simp] theorem construct_cfg (c : Config) : (construct c).cfg = c := rfl
@[simp] theorem construct_x (c : Config) : (construct c).x = Vector.replicate 31 0#64 := rfl
@[simp] theorem construct_sp (c : Config) : (construct c).sp = c.spReset := rfl
@[simp] theorem construct_pc (c : Config) : (construct c).pc = 0#64 := rfl
@[simp] theorem construct_flags (c : Config) : (construct c).flags = ⟨false, false, false, false⟩ := rfl
@[simp] theorem construct_running (c : Config) : (construct c).running = true := rfl
@[simp] theorem construct_breakpoints (c : Config) : (construct c).breakpoints = [] := rfl
@[simp] theorem construct_mem (c : Config) : (construct c).mem = [] := rfl
@[simp] theorem construct_result (c : Config) : (construct c).result = none := rfl

/-! A register write changes X0 to X30 alone. -/

@[simp] theorem setReg_cfg (s : State) (r : Reg) (v : Word) : (s.setReg r v).cfg = s.cfg := by
  unfold setReg; split <;> rfl
@[simp] theorem setReg_sp (s : State) (r : Reg) (v : Word) : (s.setReg r v).sp = s.sp := by
  unfold setReg; split <;> rfl
@[simp] theorem setReg_pc (s : State) (r : Reg) (v : Word) : (s.setReg r v).pc = s.pc := by
  unfold setReg; split <;> rfl
@[simp] theorem setReg_flags (s : State) (r : Reg) (v : Word) : (s.setReg r v).flags = s.flags := by
  unfold setReg; split <;> rfl
@[simp] theorem setReg_running (s : State) (r : Reg) (v : Word) : (s.setReg r v).running = s.running := by
  unfold setReg; split <;> rfl
@[simp] theorem setReg_breakpoints (s : State) (r : Reg) (v : Word) : (s.setReg r v).breakpoints = s.breakpoints := by
  unfold setReg; split <;> rfl
@[simp] theorem setReg_mem (s : State) (r : Reg) (v : Word) : (s.setReg r v).mem = s.mem := by
  unfold setReg; split <;> rfl
@[simp] theorem setReg_result (s : State) (r : Reg) (v : Word) : (s.setReg r v).result = s.result := by
  unfold setReg; split <;> rfl
@[simp] theorem writeback_cfg (s : State) (r : Reg) (w : Option Word) : (s.writeback r w).cfg = s.cfg := by
  cases w <;> simp [writeback]
@[simp] theorem writeback_sp (s : State) (r : Reg) (w : Option Word) : (s.writeback r w).sp = s.sp := by
  cases w <;> simp [writeback]
@[simp] theorem writeback_pc (s : State) (r : Reg) (w : Option Word) : (s.writeback r w).pc = s.pc := by
  cases w <;> simp [writeback]
@[simp] theorem writeback_flags (s : State) (r : Reg) (w : Option Word) : (s.writeback r w).flags = s.flags := by
  cases w <;> simp [writeback]
@[simp] theorem writeback_running (s : State) (r : Reg) (w : Option Word) : (s.writeback r w).running = s.running := by
  cases w <;> simp [writeback]
@[simp] theorem writeback_breakpoints (s : State) (r : Reg) (w : Option Word) : (s.writeback r w).breakpoints = s.breakpoints := by
  cases w <;> simp [writeback]
@[simp] theorem writeback_mem (s : State) (r : Reg) (w : Option Word) : (s.writeback r w).mem = s.mem := by
  cases w <;> simp [writeback]
@[simp] theorem writeback_result (s : State) (r : Reg) (w : Option Word) : (s.writeback r w).result = s.result := by
  cases w <;> simp [writeback]
@[simp] theorem link_cfg (s : State) : s.link.cfg = s.cfg := by simp [link]
@[simp] theorem link_sp (s : State) : s.link.sp = s.sp := by simp [link]
@[simp] theorem link_pc (s : State) : s.link.pc = s.pc := by simp [link]
@[simp] theorem link_flags (s : State) : s.link.flags = s.flags := by simp [link]
@[simp] theorem link_running (s : State) : s.link.running = s.running := by simp [link]
@[simp] theorem link_breakpoints (s : State) : s.link.breakpoints = s.breakpoints := by simp [link]
@[simp] theorem link_mem (s : State) : s.link.mem = s.mem := by simp [link]
@[simp] theorem link_result (s : State) : s.link.result = s.result := by simp [link]

/-! The register reads after each update. -/

@[simp] theorem reg_zero (s : State) : s.reg 31#5 = 0#64 := rfl

@[simp] theorem setReg_zero (s : State) (v : Word) : s.setReg 31#5 v = s := rfl

/-- A register read after a register write (10_state R12). -/
theorem reg_setReg (s : State) (rd : Reg) (v : Word) (r : Reg) :
    (s.setReg rd v).reg r = if r = rd ∧ r ≠ xzr then v else s.reg r := by
  by_cases hd : rd.toNat < 31
  · by_cases hr : r.toNat < 31
    · have hx : r ≠ xzr := fun h => by subst h; exact absurd hr (by decide)
      simp only [setReg, reg, hd, hr, dite_true, hx, ne_eq, not_false_eq_true, and_true]
      rw [Vector.getElem_set]
      by_cases h : r = rd
      · simp [h]
      · have : rd.toNat ≠ r.toNat := fun e => h (BitVec.eq_of_toNat_eq e.symm)
        simp [h, this]
    · have hx : r = xzr := BitVec.eq_of_toNat_eq (by
        have := r.isLt
        show r.toNat = 31
        omega)
      simp [reg, hx, xzr]
  · have hx : rd = xzr := BitVec.eq_of_toNat_eq (by
      have := rd.isLt
      show rd.toNat = 31
      omega)
    subst hx
    by_cases h : r = xzr <;> simp [setReg, h, xzr]

@[simp] theorem reg_setFlags (s : State) (f : Flags) (q : Reg) : (s.setFlags f).reg q = s.reg q := rfl
@[simp] theorem reg_retire (s : State) (a : Word) (q : Reg) : (s.retire a).reg q = s.reg q := rfl
@[simp] theorem reg_report (s : State) (r : StepResult) (q : Reg) : (s.report r).reg q = s.reg q := rfl
@[simp] theorem reg_raise (s : State) (f : Fault) (q : Reg) : (s.raise f).reg q = s.reg q := rfl

/-! The byte reads after each update. -/

@[simp] theorem byte_setFlags (s : State) (f : Flags) (k : Nat) : (s.setFlags f).byte k = s.byte k := rfl
@[simp] theorem byte_retire (s : State) (a : Word) (k : Nat) : (s.retire a).byte k = s.byte k := rfl
@[simp] theorem byte_report (s : State) (r : StepResult) (k : Nat) : (s.report r).byte k = s.byte k := rfl
@[simp] theorem byte_raise (s : State) (f : Fault) (k : Nat) : (s.raise f).byte k = s.byte k := rfl
@[simp] theorem byte_setReg (s : State) (r : Reg) (v : Word) (a : Nat) : (s.setReg r v).byte a = s.byte a := by
  simp [byte]
@[simp] theorem byte_writeback (s : State) (r : Reg) (w : Option Word) (a : Nat) :
    (s.writeback r w).byte a = s.byte a := by simp [byte]
@[simp] theorem byte_link (s : State) (a : Nat) : s.link.byte a = s.byte a := by simp [byte]

/-- Two states with the same fields are one. -/
theorem ext_fields {s t : State} (h1 : s.cfg = t.cfg) (h2 : s.x = t.x) (h3 : s.sp = t.sp) (h4 : s.pc = t.pc)
    (h5 : s.flags = t.flags) (h6 : s.running = t.running) (h7 : s.breakpoints = t.breakpoints)
    (h8 : s.mem = t.mem) (h9 : s.result = t.result) : s = t := by
  cases s; cases t; simp_all

end Sys2Proof.Machine.State
end

