-- ==== Sys2Proof/Laws/Ops.lean ====
section
/-! SUPPORT. One lemma per shared operation that says once everything it can do, and the inversion lemmas of
`exec` and `step`. -/

namespace Sys2Proof.Machine

namespace State

theorem inBounds_iff (s : State) (a : Word) (n : Nat) :
    s.inBounds a n = true ↔ a.toNat + n ≤ s.cfg.memSize := by simp [inBounds]

/-- A read that is admitted, and its value. -/
theorem memRead_eq_some {s : State} {a : Word} {n v : Nat} :
    s.memRead a n = some v ↔ a.toNat + n ≤ s.cfg.memSize ∧ v = leValue (Memory.bytes s.mem a.toNat n) := by
  unfold memRead
  split
  · next h => simp [(inBounds_iff ..).mp h, eq_comm]
  · next h => exact ⟨fun e => absurd e (by simp), fun e => absurd ((inBounds_iff ..).mpr e.1) h⟩

/-- A read that is rejected. -/
theorem memRead_eq_none {s : State} {a : Word} {n : Nat} :
    s.memRead a n = none ↔ s.cfg.memSize < a.toNat + n := by
  unfold memRead
  split
  · next h => have := (inBounds_iff ..).mp h; simp; omega
  · next h => simp only [inBounds_iff] at h; simp; omega

/-- A copy that is admitted, and the state it leaves. -/
theorem memLoad_eq_some {s t : State} {a : Word} {bs : List Byte} :
    s.memLoad a bs = some t ↔
      a.toNat + bs.length ≤ s.cfg.memSize ∧ t = { s with mem := Memory.setBytes s.mem a.toNat bs } := by
  unfold memLoad
  split
  · next h => simp [(inBounds_iff ..).mp h, eq_comm]
  · next h => exact ⟨fun e => absurd e (by simp), fun e => absurd ((inBounds_iff ..).mpr e.1) h⟩

/-- A copy that is rejected. -/
theorem memLoad_eq_none {s : State} {a : Word} {bs : List Byte} :
    s.memLoad a bs = none ↔ s.cfg.memSize < a.toNat + bs.length := by
  unfold memLoad
  split
  · next h => have := (inBounds_iff ..).mp h; simp; omega
  · next h => simp only [inBounds_iff] at h; simp; omega

/-- A write that is admitted, and the state it leaves. -/
theorem memWrite_eq_some {s t : State} {a : Word} {n v : Nat} :
    s.memWrite a n v = some t ↔
      a.toNat + n ≤ s.cfg.memSize ∧ t = { s with mem := Memory.setBytes s.mem a.toNat (leBytes n v) } := by
  rw [memWrite, memLoad_eq_some, leBytes_length]

/-- A write that is rejected. -/
theorem memWrite_eq_none {s : State} {a : Word} {n v : Nat} :
    s.memWrite a n v = none ↔ s.cfg.memSize < a.toNat + n := by
  rw [memWrite, memLoad_eq_none, leBytes_length]

/-- The fetch (40_execution_cycle R103). -/
theorem fetch_eq_none {s : State} : s.fetch = none ↔ s.cfg.memSize < s.pc.toNat + 4 := by
  rw [fetch, Option.map_eq_none_iff, memRead_eq_none]

theorem fetch_eq_some {s : State} {w : InstrWord} :
    s.fetch = some w ↔
      s.pc.toNat + 4 ≤ s.cfg.memSize ∧ w = BitVec.ofNat 32 (leValue (Memory.bytes s.mem s.pc.toNat 4)) := by
  rw [fetch, Option.map_eq_some_iff]
  constructor
  · rintro ⟨v, hv, rfl⟩
    exact ⟨(memRead_eq_some.mp hv).1, congrArg _ (memRead_eq_some.mp hv).2⟩
  · rintro ⟨h, rfl⟩
    exact ⟨_, memRead_eq_some.mpr ⟨h, rfl⟩, rfl⟩

/-- The registers after a writeback. -/
theorem reg_writeback (s : State) (rn : Reg) (wb : Option Word) (r : Reg) :
    (s.writeback rn wb).reg r =
      match wb with
      | none => s.reg r
      | some v => if r = rn ∧ r ≠ xzr then v else s.reg r := by
  cases wb with
  | none => rfl
  | some v => exact reg_setReg s rn v r

/-- Everything a load can do: the fault, or the loaded register, the writeback and the pc. -/
theorem load_cases (s : State) (m : Indexing) (rt rn : Reg) (imm : Word) :
    (s.cfg.memSize < (effectiveAddress m (s.reg rn) imm).toNat + 8 ∧
      s.load m rt rn imm = s.raise (.outOfBounds s.pc (effectiveAddress m (s.reg rn) imm) 8)) ∨
    ((effectiveAddress m (s.reg rn) imm).toNat + 8 ≤ s.cfg.memSize ∧
      s.load m rt rn imm =
        ((s.setReg rt (BitVec.ofNat 64
            (leValue (Memory.bytes s.mem (effectiveAddress m (s.reg rn) imm).toNat 8)))).writeback rn
          (writebackValue m (s.reg rn) imm)).retire s.nextPc) := by
  unfold load
  cases h : s.memRead (effectiveAddress m (s.reg rn) imm) 8 with
  | none => exact .inl ⟨memRead_eq_none.mp h, by simp [h]⟩
  | some v =>
    have hv := memRead_eq_some.mp h
    exact .inr ⟨hv.1, by simp only [h, hv.2]⟩

/-- Everything a store can do: the fault, or the eight bytes, the writeback and the pc. -/
theorem store_cases (s : State) (m : Indexing) (rt rn : Reg) (imm : Word) :
    (s.cfg.memSize < (effectiveAddress m (s.reg rn) imm).toNat + 8 ∧
      s.store m rt rn imm = s.raise (.outOfBounds s.pc (effectiveAddress m (s.reg rn) imm) 8)) ∨
    ((effectiveAddress m (s.reg rn) imm).toNat + 8 ≤ s.cfg.memSize ∧
      s.store m rt rn imm =
        (({ s with
              mem := Memory.setBytes s.mem (effectiveAddress m (s.reg rn) imm).toNat
                (leBytes 8 (s.reg rt).toNat) } : State).writeback rn
          (writebackValue m (s.reg rn) imm)).retire s.nextPc) := by
  unfold store
  cases h : s.memWrite (effectiveAddress m (s.reg rn) imm) 8 (s.reg rt).toNat with
  | none => exact .inl ⟨memWrite_eq_none.mp h, by simp [h]⟩
  | some t =>
    have ht := memWrite_eq_some.mp h
    exact .inr ⟨ht.1, by simp only [h, ht.2]⟩

end State

/-- The gate answers one next state: the body, or the pc advanced by 4. -/
theorem gate_eq (c : Cond) (s body : State) :
    gate c s body = .next (if c.holds s.flags = true then body else s.retire s.nextPc) := by
  unfold gate; split <;> rfl

/-- What each instruction does once its condition holds. -/
def body : Instr → State → State
  | .and _ rd rn rm sh, s => s.finishLogical rd (s.reg rn &&& s.shiftedReg rm sh)
  | .eor _ rd rn rm sh, s => s.finishLogical rd (s.reg rn ^^^ s.shiftedReg rm sh)
  | .sub _ rd rn rm sh, s => s.finishArith rd (subFlags (s.reg rn) (s.shiftedReg rm sh))
  | .add _ rd rn rm sh, s => s.finishArith rd (addFlags (s.reg rn) (s.shiftedReg rm sh))
  | .orr _ rd rn rm sh, s => s.finishLogical rd (s.reg rn ||| s.shiftedReg rm sh)
  | .addi _ rd rn imm, s => s.finishArith rd (addFlags (s.reg rn) imm)
  | .subi _ rd rn imm, s => s.finishArith rd (subFlags (s.reg rn) imm)
  | .andi _ rd rn imm, s => s.finishLogical rd (s.reg rn &&& imm)
  | .orri _ rd rn imm, s => s.finishLogical rd (s.reg rn ||| imm)
  | .eori _ rd rn imm, s => s.finishLogical rd (s.reg rn ^^^ imm)
  | .sturOffset _ rt rn imm, s => s.store .offset rt rn imm
  | .sturPreIndex _ rt rn imm, s => s.store .preIndex rt rn imm
  | .sturPostIndex _ rt rn imm, s => s.store .postIndex rt rn imm
  | .ldurOffset _ rt rn imm, s => s.load .offset rt rn imm
  | .ldurPreIndex _ rt rn imm, s => s.load .preIndex rt rn imm
  | .ldurPostIndex _ rt rn imm, s => s.load .postIndex rt rn imm
  | .b _ imm, s => s.retire (s.branchTarget imm)
  | .bl _ imm, s => s.link.retire (s.branchTarget imm)
  | .br _ rn, s => s.retire (s.reg rn)
  | .blr _ rn, s => s.link.retire (s.reg rn)
  | .ret _ rn, s => s.retire (s.reg rn)
  | .cbz _ rt imm, s => s.retire (if s.reg rt = 0#64 then s.branchTarget imm else s.nextPc)
  | .cbnz _ rt imm, s => s.retire (if s.reg rt ≠ 0#64 then s.branchTarget imm else s.nextPc)

/-- Every arm of `exec` is the gate over the instruction's own effect. -/
theorem exec_eq_gate (i : Instr) (s : State) : exec i s = gate i.cond s (body i s) := by cases i <;> rfl

/-- Everything `exec` can answer. -/
theorem exec_eq (i : Instr) (s : State) :
    exec i s = .next (if i.cond.holds s.flags = true then body i s else s.retire s.nextPc) := by
  rw [exec_eq_gate, gate_eq]

/-- Everything a step can do, in the order of its stages (40_execution_cycle R109). -/
theorem step_cases {s : State} {o : Host.Outcome State Fault Refusal} (h : step s = o) :
    (s.running = false ∧ o = .next (s.report .alreadyHalted)) ∨
    (s.running = true ∧ s.pc ∈ s.breakpoints ∧ o = .next (s.report .breakpointHit)) ∨
    (s.running = true ∧ s.pc ∉ s.breakpoints ∧ s.fetch = none ∧
      o = .next (s.raise (.outOfBounds s.pc s.pc 4))) ∨
    (∃ w u, s.running = true ∧ s.pc ∉ s.breakpoints ∧ s.fetch = some w ∧
      decode s.cfg.decodeEori w = .error u ∧ o = .next (s.raise (.invalidInstruction s.pc))) ∨
    (∃ w i, s.running = true ∧ s.pc ∉ s.breakpoints ∧ s.fetch = some w ∧
      decode s.cfg.decodeEori w = .ok i ∧ o = exec i s) := by
  subst h
  unfold step
  by_cases hr : s.running = false
  · simp [hr]
  · have hr' : s.running = true := by simpa using hr
    by_cases hb : s.pc ∈ s.breakpoints
    · simp [hr', hb]
    · cases hf : s.fetch with
      | none => simp [hr', hb]
      | some w =>
        cases hd : decode s.cfg.decodeEori w with
        | error u => exact .inr (.inr (.inr (.inl ⟨w, u, hr', hb, rfl, hd, by simp [hr', hb, hd]⟩)))
        | ok i => exact .inr (.inr (.inr (.inr ⟨w, i, hr', hb, rfl, hd, by simp [hr', hb, hd]⟩)))

/-! ### The breakpoint set -/

theorem mem_insertAddress (a b : Word) (bs : List Word) : b ∈ insertAddress a bs ↔ b = a ∨ b ∈ bs := by
  induction bs with
  | nil => simp [insertAddress]
  | cons c bs ih =>
    simp only [insertAddress]
    split
    · simp
    · split
      · next h => subst h; simp
      · simp only [List.mem_cons, ih]; tauto

theorem mem_removeAddress (a b : Word) (bs : List Word) : b ∈ removeAddress a bs ↔ b ≠ a ∧ b ∈ bs := by
  simp [removeAddress, and_comm]

theorem pairwise_insertAddress (a : Word) {bs : List Word} (h : bs.Pairwise fun x y => x.toNat < y.toNat) :
    (insertAddress a bs).Pairwise fun x y => x.toNat < y.toNat := by
  induction bs with
  | nil => simp [insertAddress]
  | cons c bs ih =>
    obtain ⟨hc, hbs⟩ := List.pairwise_cons.mp h
    simp only [insertAddress]
    split
    · next hac =>
      refine List.pairwise_cons.mpr ⟨fun b hb => ?_, h⟩
      rcases List.mem_cons.mp hb with rfl | hb
      · exact hac
      · have := hc b hb; omega
    · split
      · exact h
      · next h1 h2 =>
        have hne : a.toNat ≠ c.toNat := fun e => h2 (BitVec.eq_of_toNat_eq e)
        refine List.pairwise_cons.mpr ⟨fun b hb => ?_, ih hbs⟩
        rcases (mem_insertAddress a b bs).mp hb with rfl | hb
        · omega
        · exact hc b hb

theorem pairwise_removeAddress (a : Word) {bs : List Word} (h : bs.Pairwise fun x y => x.toNat < y.toNat) :
    (removeAddress a bs).Pairwise fun x y => x.toNat < y.toNat := h.filter _

end Sys2Proof.Machine
end

