-- ==== Sys2Proof/Laws/PerInstr.lean ====
section
/-! SUPPORT. A law per constructor: the word of an instruction carries the fixed bits of its row of the
opcode map (30_encoding R89). -/

namespace Sys2Proof.Laws

/-- A mask applied field by field. -/
theorem append_and_append {m n : Nat} (a b : BitVec m) (c d : BitVec n) :
    (a ++ c) &&& (b ++ d) = (a &&& b) ++ (c &&& d) := by
  ext i hi
  simp only [BitVec.getElem_and, BitVec.getElem_append]
  split <;> rfl

/-- The mask of a three-bit field keeps the field. -/
theorem and_seven : ∀ x : BitVec 3, x &&& 7#3 = x := by decide

namespace RowBits

/-- The word the encoder writes has the fixed bits of the instruction's row, whatever its operands. -/
def Statement (i : Instr) : Prop := encode i &&& i.rowMask = i.rowMatch

/-! The mask of each format, field by field (30_encoding R75 to R80). -/

theorem fieldsR (opc : BitVec 3) (rd rn rm : Reg) (sh : BitVec 6) :
    (opc ++ 0b010#3 ++ 0#2 ++ sh.setWidth 2 ++ 0#1 ++ rm ++ 0#6 ++ rn ++ rd) &&& (7#3 ++ 7#3 ++ 3#2 ++ 0#2 ++ 1#1 ++ 0#5 ++ 63#6 ++ 0#5 ++ 0#5) =
      opc ++ 0b010#3 ++ 0#2 ++ 0#2 ++ 0#1 ++ 0#5 ++ 0#6 ++ 0#5 ++ 0#5 := by
  simp only [append_and_append, and_seven, BitVec.and_zero, BitVec.zero_and]

theorem maskR (opc : BitVec 3) (rd rn rm : Reg) (sh : BitVec 6) :
    encodeR opc rd rn rm sh &&& 0xFF20FC00#32 = opc ++ 0b010#3 ++ 0#2 ++ 0#2 ++ 0#1 ++ 0#5 ++ 0#6 ++ 0#5 ++ 0#5 := by
  rw [show 0xFF20FC00#32 = 7#3 ++ 7#3 ++ 3#2 ++ 0#2 ++ 1#1 ++ 0#5 ++ 63#6 ++ 0#5 ++ 0#5 by decide]
  exact fieldsR opc rd rn rm sh

theorem fieldsI (opc : BitVec 3) (rd rn : Reg) (imm : Word) :
    (opc ++ 0b100#3 ++ 0#4 ++ imm.setWidth 12 ++ rn ++ rd) &&& (7#3 ++ 7#3 ++ 15#4 ++ 0#12 ++ 0#5 ++ 0#5) =
      opc ++ 0b100#3 ++ 0#4 ++ 0#12 ++ 0#5 ++ 0#5 := by
  simp only [append_and_append, and_seven, BitVec.and_zero, BitVec.zero_and]

theorem maskI (opc : BitVec 3) (rd rn : Reg) (imm : Word) :
    encodeI opc rd rn imm &&& 0xFFC00000#32 = opc ++ 0b100#3 ++ 0#4 ++ 0#12 ++ 0#5 ++ 0#5 := by
  rw [show 0xFFC00000#32 = 7#3 ++ 7#3 ++ 15#4 ++ 0#12 ++ 0#5 ++ 0#5 by decide]
  exact fieldsI opc rd rn imm

theorem fieldsD (opc : BitVec 3) (rt rn : Reg) (imm : Word) :
    (opc ++ 0b110#3 ++ imm.setWidth 16 ++ rn ++ rt) &&& (7#3 ++ 7#3 ++ 0#16 ++ 0#5 ++ 0#5) =
      opc ++ 0b110#3 ++ 0#16 ++ 0#5 ++ 0#5 := by
  simp only [append_and_append, and_seven, BitVec.and_zero]

theorem maskD (opc : BitVec 3) (rt rn : Reg) (imm : Word) :
    encodeD opc rt rn imm &&& 0xFC000000#32 = opc ++ 0b110#3 ++ 0#16 ++ 0#5 ++ 0#5 := by
  rw [show 0xFC000000#32 = 7#3 ++ 7#3 ++ 0#16 ++ 0#5 ++ 0#5 by decide]
  exact fieldsD opc rt rn imm

theorem fieldsB (opc : BitVec 3) (imm : Word) :
    (opc ++ 0b101#3 ++ imm.extractLsb' 2 26) &&& (7#3 ++ 7#3 ++ 0#26) =
      opc ++ 0b101#3 ++ 0#26 := by
  simp only [append_and_append, and_seven, BitVec.and_zero]

theorem maskB (opc : BitVec 3) (imm : Word) :
    encodeB opc imm &&& 0xFC000000#32 = opc ++ 0b101#3 ++ 0#26 := by
  rw [show 0xFC000000#32 = 7#3 ++ 7#3 ++ 0#26 by decide]
  exact fieldsB opc imm

theorem fieldsBR (opc : BitVec 3) (rn : Reg) :
    (opc ++ 0b101#3 ++ 0#16 ++ rn ++ 0#5) &&& (7#3 ++ 7#3 ++ 65535#16 ++ 0#5 ++ 31#5) =
      opc ++ 0b101#3 ++ 0#16 ++ 0#5 ++ 0#5 := by
  simp only [append_and_append, and_seven, BitVec.and_zero, BitVec.zero_and]

theorem maskBR (opc : BitVec 3) (rn : Reg) :
    encodeBR opc rn &&& 0xFFFFFC1F#32 = opc ++ 0b101#3 ++ 0#16 ++ 0#5 ++ 0#5 := by
  rw [show 0xFFFFFC1F#32 = 7#3 ++ 7#3 ++ 65535#16 ++ 0#5 ++ 31#5 by decide]
  exact fieldsBR opc rn

theorem fieldsCB (opc : BitVec 3) (rt : Reg) (imm : Word) :
    (opc ++ 0b101#3 ++ 0#2 ++ imm.extractLsb' 2 19 ++ rt) &&& (7#3 ++ 7#3 ++ 3#2 ++ 0#19 ++ 0#5) =
      opc ++ 0b101#3 ++ 0#2 ++ 0#19 ++ 0#5 := by
  simp only [append_and_append, and_seven, BitVec.and_zero, BitVec.zero_and]

theorem maskCB (opc : BitVec 3) (rt : Reg) (imm : Word) :
    encodeCB opc rt imm &&& 0xFF000000#32 = opc ++ 0b101#3 ++ 0#2 ++ 0#19 ++ 0#5 := by
  rw [show 0xFF000000#32 = 7#3 ++ 7#3 ++ 3#2 ++ 0#19 ++ 0#5 by decide]
  exact fieldsCB opc rt imm

theorem and (c : Cond) (rd rn rm : Reg) (sh : BitVec 6) : Statement (.and c rd rn rm sh) :=
  maskR 0#3 rd rn rm sh
theorem eor (c : Cond) (rd rn rm : Reg) (sh : BitVec 6) : Statement (.eor c rd rn rm sh) :=
  maskR 1#3 rd rn rm sh
theorem sub (c : Cond) (rd rn rm : Reg) (sh : BitVec 6) : Statement (.sub c rd rn rm sh) :=
  maskR 2#3 rd rn rm sh
theorem add (c : Cond) (rd rn rm : Reg) (sh : BitVec 6) : Statement (.add c rd rn rm sh) :=
  maskR 3#3 rd rn rm sh
theorem orr (c : Cond) (rd rn rm : Reg) (sh : BitVec 6) : Statement (.orr c rd rn rm sh) :=
  maskR 4#3 rd rn rm sh
theorem addi (c : Cond) (rd rn : Reg) (imm : Word) : Statement (.addi c rd rn imm) :=
  maskI 0#3 rd rn imm
theorem subi (c : Cond) (rd rn : Reg) (imm : Word) : Statement (.subi c rd rn imm) :=
  maskI 1#3 rd rn imm
theorem andi (c : Cond) (rd rn : Reg) (imm : Word) : Statement (.andi c rd rn imm) :=
  maskI 2#3 rd rn imm
theorem orri (c : Cond) (rd rn : Reg) (imm : Word) : Statement (.orri c rd rn imm) :=
  maskI 3#3 rd rn imm
theorem eori (c : Cond) (rd rn : Reg) (imm : Word) : Statement (.eori c rd rn imm) :=
  maskI 4#3 rd rn imm
theorem sturOffset (c : Cond) (rt rn : Reg) (imm : Word) : Statement (.sturOffset c rt rn imm) :=
  maskD 0b000#3 rt rn imm
theorem sturPreIndex (c : Cond) (rt rn : Reg) (imm : Word) : Statement (.sturPreIndex c rt rn imm) :=
  maskD 0b001#3 rt rn imm
theorem sturPostIndex (c : Cond) (rt rn : Reg) (imm : Word) : Statement (.sturPostIndex c rt rn imm) :=
  maskD 0b010#3 rt rn imm
theorem ldurOffset (c : Cond) (rt rn : Reg) (imm : Word) : Statement (.ldurOffset c rt rn imm) :=
  maskD 0b100#3 rt rn imm
theorem ldurPreIndex (c : Cond) (rt rn : Reg) (imm : Word) : Statement (.ldurPreIndex c rt rn imm) :=
  maskD 0b101#3 rt rn imm
theorem ldurPostIndex (c : Cond) (rt rn : Reg) (imm : Word) : Statement (.ldurPostIndex c rt rn imm) :=
  maskD 0b110#3 rt rn imm
theorem b (c : Cond) (imm : Word) : Statement (.b c imm) :=
  maskB 0#3 imm
theorem bl (c : Cond) (imm : Word) : Statement (.bl c imm) :=
  maskB 1#3 imm
theorem br (c : Cond) (rn : Reg) : Statement (.br c rn) :=
  maskBR 2#3 rn
theorem blr (c : Cond) (rn : Reg) : Statement (.blr c rn) :=
  maskBR 3#3 rn
theorem ret (c : Cond) (rn : Reg) : Statement (.ret c rn) :=
  maskBR 4#3 rn
theorem cbz (c : Cond) (rt : Reg) (imm : Word) : Statement (.cbz c rt imm) :=
  maskCB 5#3 rt imm
theorem cbnz (c : Cond) (rt : Reg) (imm : Word) : Statement (.cbnz c rt imm) :=
  maskCB 6#3 rt imm

end RowBits

end Sys2Proof.Laws
end

