-- ==== Sys2Proof/Laws/Port.lean ====
section
/-! SUPPORT. What each operation of the host port can do, once: later proofs cite these and unfold no
operation. -/

namespace Sys2Proof.Machine

/-- A memory read of the port: the value of its bytes inside the memory, the error outside
(20_memory R46, R47). -/
theorem Port.read_eq (s : State) (n : Nat) (a : Word) :
    Port.read s n a =
      if a.toNat + n ≤ s.cfg.memSize then .ok (leValue (Memory.bytes s.mem a.toNat n))
      else .error .outOfBounds := by
  unfold Port.read
  split
  · next v h => obtain ⟨h, h'⟩ := State.memRead_eq_some.mp h; rw [if_pos h, h']
  · next h => rw [if_neg (by have := State.memRead_eq_none.mp h; omega)]

/-- A memory write of the port: the bytes set inside the memory, the error outside (20_memory R46, R47). -/
theorem Port.write_eq (s : State) (n : Nat) (a : Word) (v : Nat) :
    Port.write s n a v =
      if a.toNat + n ≤ s.cfg.memSize then
        .ok { s with mem := Memory.setBytes s.mem a.toNat (leBytes n v) }
      else .error .outOfBounds := by
  unfold Port.write
  split
  · next t h => have h := State.memWrite_eq_some.mp h; rw [if_pos h.1, h.2]
  · next h => rw [if_neg (by have := State.memWrite_eq_none.mp h; omega)]

/-- load_program: the bytes set and the pc moved where they fit, the error where not
(70_reset_and_hazards R265, R266). -/
theorem Port.loadProgram_eq (s : State) (bytes : List Byte) (a : Word) :
    Port.loadProgram s bytes a =
      if a.toNat + bytes.length ≤ s.cfg.memSize then
        .ok { s with mem := Memory.setBytes s.mem a.toNat bytes, pc := a }
      else .error .outOfBounds := by
  unfold Port.loadProgram
  split
  · next t h => have h := State.memLoad_eq_some.mp h; rw [if_pos h.1, h.2]
  · next h => rw [if_neg (by have := State.memLoad_eq_none.mp h; omega)]

/-- A step command that answers is that step, and its reply is the step's outcome. -/
theorem Port.stepped_eq_next {o : Host.Outcome State Fault Refusal} {t : State} {r : Reply} :
    Port.stepped o = .next (t, r) ↔ o = .next t ∧ r = .stepped t.result := by
  cases o with
  | next s => simp [Port.stepped]; rintro rfl; exact eq_comm
  | fault f => simp [Port.stepped]
  | refused r => simp [Port.stepped]

/-- A run command that answers is that run, and it returns nothing beside the state. -/
theorem Port.finished_eq_next {o : Host.Outcome State Fault Refusal} {t : State} {r : Reply} :
    Port.finished o = .next (t, r) ↔ o = .next t ∧ r = .done := by
  cases o <;> simp [Port.finished, eq_comm]

/-- What every step keeps, a run keeps. -/
theorem Port.run_keeps (P : State → Prop) (hP : ∀ s t, P s → step s = .next t → P t) (k : Nat) :
    ∀ s t, P s → Port.run k s = .next t → P t := by
  induction k with
  | zero => intro s t h e; cases e; exact h
  | succ k ih =>
    intro s t h e
    simp only [Port.run] at e
    cases hs : step s with
    | next u =>
      simp only [hs] at e
      split at e
      · exact ih u t (hP s u h hs) e
      · cases e; exact hP _ _ h hs
    | fault f => simp [hs] at e
    | refused r => simp [hs] at e

end Sys2Proof.Machine
end

