-- ==== Sys2Proof/Tests/Slice0.lean ====
section
/-! SUPPORT. Tests: the words and the one-step vectors of 95_test_vectors.md (V1 to V5, V7 to V9), a refused ill-formed
term for every check of `Instr.wf`, and for every statement with hypotheses a concrete state and operands
that meet them. The expected values are the spec's own. -/

namespace Sys2Proof.Tests

open Sys2Proof Sys2Proof.Machine

/-! ### Helpers -/

/-- MEM_SIZE 0x1000, as the vectors of 95_test_vectors.md have it. -/
def cfg (decodeEori : Bool) : Config where
  memSize := 0x1000
  memSize_lt := by decide
  spReset := 0x8000#64
  decodeEori := decodeEori

/-- A machine just constructed, with the word at 0x100, the pc there and some registers set. -/
def start (decodeEori : Bool) (w : InstrWord) (regs : List (Reg × Word)) : State :=
  regs.foldl (fun s r => s.setReg r.1 r.2)
    { State.construct (cfg decodeEori) with
      pc := 0x100#64
      mem := Memory.setBytes [] 0x100 (bytesOfWord w) }

/-- The next state an outcome holds. -/
def after {α : Type} : Host.Outcome α Fault Refusal → Option α
  | .next t => some t
  | .fault _ => none
  | .refused _ => none

/-- The refusal an outcome holds. -/
def refusalOf {α : Type} : Host.Outcome α Fault Refusal → Option Refusal
  | .next _ => none
  | .fault _ => none
  | .refused r => some r

/-- One step from `start`, seen through `f`. -/
def see {α : Type} (decodeEori : Bool) (w : InstrWord) (regs : List (Reg × Word)) (f : State → α) : Option α :=
  (after (step (start decodeEori w regs))).map f

/-- Some registers' values. -/
def regs (rs : List Reg) (t : State) : List Word := rs.map t.reg

/-- A register, the flags as N, Z, C, V, and the pc. -/
def rfp (r : Reg) (t : State) : Word × Flags × Word := (t.reg r, t.flags, t.pc)

/-- Eight bytes of memory as a number. -/
def read64 (a : Nat) (t : State) : Nat := leValue (Memory.bytes t.mem a 8)

/-- The machine of the memory tests: `read64` of 0x200 is 0xAAAA and of 0x208 is 0x1122334455667788. -/
def withData (w : InstrWord) (rs : List (Reg × Word)) : State :=
  let s := start false w rs
  { s with mem := Memory.setBytes s.mem 0x200 (leBytes 8 0xAAAA ++ leBytes 8 0x1122334455667788) }

/-! ### Decoding: words written out from 30_encoding (95_test_vectors V1) -/

theorem test_decode_register_class :
    decode false 0x08C20023#32 = .ok (.and .al 3 1 2 3) ∧ decode false 0x28010021#32 = .ok (.eor .al 1 1 1 0) ∧
    decode false 0x48020023#32 = .ok (.sub .al 3 1 2 0) ∧ decode false 0x68820023#32 = .ok (.add .al 3 1 2 2) ∧
    decode false 0x88420023#32 = .ok (.orr .al 3 1 2 1) ∧ decode false 0x081F03FF#32 = .ok (.and .al 31 31 31 0) := by
  decide

theorem test_decode_immediate_class :
    decode false 0x10001401#32 = .ok (.addi .al 1 0 5) ∧ decode false 0x103FFC41#32 = .ok (.addi .al 1 2 (-1)) ∧
    decode false 0x302003E1#32 = .ok (.subi .al 1 31 (-2048)) ∧
    decode false 0x5003FC41#32 = .ok (.andi .al 1 2 0xFF) ∧ decode false 0x70003C41#32 = .ok (.orri .al 1 2 0xF) ∧
    decode true 0x90155441#32 = .ok (.eori .al 1 2 0x555) ∧
    decode false 0x90155441#32 = .error .immediateClass := by
  decide

theorem test_decode_load_store_class :
    decode false 0x18002041#32 = .ok (.sturOffset .al 1 2 8) ∧
    decode false 0x3BFFC041#32 = .ok (.sturPreIndex .al 1 2 (-16)) ∧
    decode false 0x5BFFC041#32 = .ok (.sturPostIndex .al 1 2 (-16)) ∧
    decode false 0x9BFFE041#32 = .ok (.ldurOffset .al 1 2 (-8)) ∧
    decode false 0xB8002041#32 = .ok (.ldurPreIndex .al 1 2 8) ∧
    decode false 0xD8002041#32 = .ok (.ldurPostIndex .al 1 2 8) := by
  decide

theorem test_decode_branch_class :
    decode false 0x17FFFFFE#32 = .ok (.b .al (-8)) ∧ decode false 0x16000000#32 = .ok (.b .al (-134217728)) ∧
    decode false 0x15FFFFFF#32 = .ok (.b .al 134217724) ∧ decode false 0x34000010#32 = .ok (.bl .al 64) ∧
    decode false 0x54000000#32 = .ok (.br .al 0) ∧ decode false 0x740003C0#32 = .ok (.blr .al 30) ∧
    decode false 0x94000000#32 = .ok (.ret .al 30) ∧ decode false 0x940003E0#32 = .ok (.ret .al 31) ∧
    decode false 0xB4000063#32 = .ok (.cbz .al 3 12) ∧ decode false 0xB47FFFE0#32 = .ok (.cbz .al 0 1048572) ∧
    decode false 0xB4800000#32 = .ok (.cbz .al 0 (-1048576)) ∧ decode false 0xD4FFFFC3#32 = .ok (.cbnz .al 3 (-8)) := by
  decide

/-- The INVALID words of V1, with the clause of 30_encoding R90 each falls under. -/
theorem test_decode_no_class :
    decode false 0x00000000#32 = .error .noClass ∧
    decode false 0xFFFFFFFF#32 = .error .noClass ∧
    decode false 0x04000000#32 = .error .noClass ∧
    decode false 0x0C000000#32 = .error .noClass ∧
    decode false 0x1C000000#32 = .error .noClass := by decide
theorem test_decode_reserved :
    decode false 0xA8000000#32 = .error .registerClass ∧
    decode false 0x09000000#32 = .error .registerClass ∧
    decode false 0x08200000#32 = .error .registerClass ∧
    decode false 0x08000400#32 = .error .registerClass ∧
    decode false 0xB0000000#32 = .error .immediateClass ∧
    decode false 0x10400000#32 = .error .immediateClass ∧
    decode false 0x90000000#32 = .error .immediateClass := by decide
theorem test_decode_reserved_memory_and_branch :
    decode false 0x78000041#32 = .error .loadStoreClass ∧
    decode false 0xF8000041#32 = .error .loadStoreClass ∧
    decode false 0x540000A1#32 = .error .branchClass ∧
    decode false 0x540004A0#32 = .error .branchClass ∧
    decode false 0xB5000063#32 = .error .branchClass ∧
    decode false 0xF4000000#32 = .error .branchClass := by decide

/-- The record of Scenario A and the bytes of its word (95_test_vectors S2, 70_reset_and_hazards R267). -/
theorem test_scenario_a_record :
    decodeRecord false 0x10001401#32 = { opcode := .addi, rd := 1, imm := 5 } ∧
    decodeBytes false [0x01, 0x14, 0x00, 0x10, 0xFF] = .ok (.addi .al 1 0 5, [0xFF]) ∧
    decodeBytes false [0x01, 0x14, 0x00] = .error .truncated ∧
    decodeTableWord 32 0x10001401 = some (.addi .al 1 0 5) := by
  decide

/-! ### WellFormed: one ill-formed term for each check (30_encoding R87, R93, R94, R96) -/

theorem test_wf_refuses_condition : (Instr.b .eq 8).wf false = false := by decide
theorem test_wf_refuses_shift : (Instr.add .al 1 2 3 4).wf false = false := by decide
theorem test_wf_refuses_imm12 : (Instr.addi .al 1 2 2048).wf false = false ∧ (Instr.andi .al 1 2 (-2049)).wf false = false := by
  decide
theorem test_wf_refuses_imm16 :
    (Instr.ldurOffset .al 1 2 32768).wf false = false ∧ (Instr.sturPreIndex .al 1 2 (-32769)).wf false = false := by
  decide
theorem test_wf_refuses_imm26 :
    (Instr.b .al 134217728).wf false = false ∧ (Instr.bl .al (-134217732)).wf false = false ∧
    (Instr.b .al 2).wf false = false := by
  decide
theorem test_wf_refuses_imm19 :
    (Instr.cbz .al 1 1048576).wf false = false ∧ (Instr.cbnz .al 1 (-1048580)).wf false = false ∧
    (Instr.cbz .al 1 6).wf false = false := by
  decide
theorem test_wf_refuses_ret_x0 : (Instr.ret .al 0).wf false = false := by decide
theorem test_wf_refuses_eori_without_parameter :
    (Instr.eori .al 1 2 3).wf false = false ∧ (Instr.eori .al 1 2 3).wf true = true := by
  decide

/-! ### Register class (95_test_vectors V2) -/

theorem test_and : see false 0x08020023#32 [(1, 0xFF00FF00FF00FF00), (2, 0x0FF00FF00FF00FF0)] (rfp 3) =
    some (0x0F000F000F000F00, ⟨false, false, false, false⟩, 0x104) := by decide
theorem test_and_shifted : see false 0x08C20023#32 [(1, 0xFFFF), (2, 0x1234)] (regs [3]) = some [0x91A0] := by decide
theorem test_eor : see false 0x28020023#32 [(1, 0xFF00FF00FF00FF00), (2, 0x0FF00FF00FF00FF0)] (rfp 3) =
    some (0xF0F0F0F0F0F0F0F0, ⟨false, false, false, false⟩, 0x104) := by decide
theorem test_eor_same_register_keeps_z : see false 0x28010021#32 [(1, 0x1234)] (rfp 1) =
    some (0, ⟨false, false, false, false⟩, 0x104) := by decide
theorem test_sub_borrow : see false 0x48020023#32 [(1, 5), (2, 7)] (rfp 3) =
    some (0xFFFFFFFFFFFFFFFE, ⟨true, false, false, false⟩, 0x104) := by decide
theorem test_sub_overflow : see false 0x48020023#32 [(1, 0x8000000000000000), (2, 1)] (rfp 3) =
    some (0x7FFFFFFFFFFFFFFF, ⟨false, false, true, true⟩, 0x104) := by decide
theorem test_add_wraps : see false 0x68020023#32 [(1, 0x8000000000000000), (2, 0x8000000000000000)] (rfp 3) =
    some (0, ⟨false, true, true, true⟩, 0x104) := by decide
theorem test_add_shifted_out : see false 0x68C203E3#32 [(2, 0xE000000000000001)] (rfp 3) =
    some (8, ⟨false, false, false, false⟩, 0x104) := by decide
theorem test_orr_shifted : see false 0x88420023#32 [(1, 1), (2, 0x8000000000000001)] (rfp 3) =
    some (3, ⟨false, false, false, false⟩, 0x104) := by decide
theorem test_orr_moves : see false 0x880703E5#32 [(7, 0xDEADBEEF)] (regs [5, 7]) =
    some [0xDEADBEEF, 0xDEADBEEF] := by decide

/-! ### Immediate class (95_test_vectors V3) -/

theorem test_addi_scenario_a : see false 0x10001401#32 [] (rfp 1) =
    some (5, ⟨false, false, false, false⟩, 0x104) := by decide
theorem test_addi_negative : see false 0x103FFC41#32 [(2, 1)] (rfp 1) =
    some (0, ⟨false, true, true, false⟩, 0x104) := by decide
theorem test_subi_overflow : see false 0x30000441#32 [(2, 0x8000000000000000)] (rfp 1) =
    some (0x7FFFFFFFFFFFFFFF, ⟨false, false, true, true⟩, 0x104) := by decide
theorem test_subi_compares : see false 0x3000285F#32 [(2, 10)] (rfp 31) =
    some (0, ⟨false, true, true, false⟩, 0x104) := by decide
theorem test_andi_positive : see false 0x5003FC41#32 [(2, 0x123456789ABCDEF0)] (regs [1]) = some [0xF0] := by decide
theorem test_andi_negative : see false 0x503FC041#32 [(2, 0x123456789ABCDEFF)] (regs [1]) =
    some [0x123456789ABCDEF0] := by decide
theorem test_orri : see false 0x702003E1#32 [] (rfp 1) =
    some (0xFFFFFFFFFFFFF800, ⟨false, false, false, false⟩, 0x104) := by decide
theorem test_orri_keeps_flags :
    (after (step { start false 0x7000ABE1#32 [] with flags := ⟨true, true, true, true⟩ })).map (rfp 1) =
      some (42, ⟨true, true, true, true⟩, 0x104) := by decide
theorem test_eori : see true 0x90155441#32 [(2, 0xFFF)] (rfp 1) =
    some (0xAAA, ⟨false, false, false, false⟩, 0x104) := by decide
theorem test_eori_without_parameter : see false 0x903FFC41#32 [] (fun t => (t.result, t.pc, t.running)) =
    some (some (.haltedOnFault (.invalidInstruction 0x100)), 0x100, false) := by decide

/-! ### Load/store class (95_test_vectors V4) -/

theorem test_ldur_offset : (after (step (withData 0x98002041#32 [(2, 0x200)]))).map (regs [1, 2]) =
    some [0x1122334455667788, 0x200] := by decide
theorem test_ldur_offset_past_end :
    see false 0x98000041#32 [(2, 0xFF9)] (fun t => (t.result, t.reg 1, t.pc, t.running)) =
      some (some (.haltedOnFault (.outOfBounds 0x100 0xFF9 8)), 0, 0x100, false) := by decide
theorem test_ldur_pre_index : (after (step (withData 0xB8002041#32 [(2, 0x200)]))).map (regs [1, 2]) =
    some [0x1122334455667788, 0x208] := by decide
theorem test_ldur_pre_index_writeback_wins :
    (after (step (withData 0xB8002042#32 [(2, 0x200)]))).map (regs [2]) = some [0x208] := by decide
theorem test_ldur_post_index : (after (step (withData 0xD8002041#32 [(2, 0x200)]))).map (regs [1, 2]) =
    some [0xAAAA, 0x208] := by decide
theorem test_stur_offset : see false 0x18002041#32 [(1, 0x1122334455667788), (2, 0x200)]
      (fun t => (Memory.bytes t.mem 0x207 10, t.reg 2)) =
    some ([0, 0x88, 0x77, 0x66, 0x55, 0x44, 0x33, 0x22, 0x11, 0], 0x200) := by decide
theorem test_stur_pre_index_stores_old_base : see false 0x38002042#32 [(2, 0x200)]
    (fun t => (read64 0x208 t, t.reg 2)) = some (0x200, 0x208) := by decide
theorem test_stur_pre_index_past_end :
    see false 0x38002041#32 [(2, 0xFF8)] (fun t => (t.result, t.reg 2, t.mem)) =
      some (some (.haltedOnFault (.outOfBounds 0x100 0x1000 8)), 0xFF8, (start false 0x38002041#32 []).mem) := by decide
theorem test_stur_post_index : see false 0x5BFFC041#32 [(1, 0xCAFE), (2, 0x300)]
    (fun t => (read64 0x300 t, t.reg 2)) = some (0xCAFE, 0x2F0) := by decide

/-! ### Branch class (95_test_vectors V5) -/

theorem test_b_backward : see false 0x17FFFFFE#32 [] State.pc = some 0xF8 := by decide
theorem test_b_wraps : see false 0x17FFFFBF#32 [] State.pc = some 0xFFFFFFFFFFFFFFFC := by decide
theorem test_bl : see false 0x34000010#32 [(30, 0x999)] (fun t => (t.reg 30, t.pc)) = some (0x104, 0x140) := by decide
theorem test_br_unaligned : see false 0x540000A0#32 [(5, 0x803)] State.pc = some 0x803 := by decide
theorem test_br_field_zero_is_x0 : see false 0x54000000#32 [(0, 0x20)] State.pc = some 0x20 := by decide
theorem test_blr_x30_reads_target_first :
    see false 0x740003C0#32 [(30, 0x800)] (fun t => (t.reg 30, t.pc)) = some (0x104, 0x800) := by decide
theorem test_ret_default : see false 0x94000000#32 [(30, 0x444), (0, 0x888)] State.pc = some 0x444 := by decide
theorem test_ret_zero_register : see false 0x940003E0#32 [(30, 0x444)] State.pc = some 0 := by decide
theorem test_cbz_taken : see false 0xB4000063#32 [] State.pc = some 0x10C := by decide
theorem test_cbz_top_bit : see false 0xB4000063#32 [(3, 0x8000000000000000)] State.pc = some 0x104 := by decide
theorem test_cbnz_taken : see false 0xD4FFFFC3#32 [(3, 5)] State.pc = some 0xF8 := by decide
theorem test_cbnz_zero_register : see false 0xD4FFFFDF#32 [] State.pc = some 0x104 := by decide

/-! ### The execute-stage interface (95_test_vectors V2, V7) -/

/-- The start state of V7: X1 = 0x77, X2 = 0x200, X30 = 0x999, Z set. -/
def gated : State :=
  { start false 0#32 [(1, 0x77), (2, 0x200), (30, 0x999)] with flags := ⟨false, true, false, false⟩ }

theorem test_shift_63 :
    (after (executeRecord { opcode := .sub, rd := 3, rn := 1, rm := 2, shift := 63 }
      (start false 0#32 [(1, 1), (2, 1)]))).map (rfp 3) =
      some (0x8000000000000001, ⟨true, false, false, true⟩, 0x104) := by decide
theorem test_gate_stur :
    (after (executeRecord
      { opcode := .stur, cond := .ne, rd := 1, rn := 2, imm := 8, mode := .preIndex, writeback := true } gated)).map
      (fun t => (t.mem, t.reg 2, t.pc)) = some (gated.mem, 0x200, 0x104) ∧
    (after (executeRecord
      { opcode := .stur, cond := .eq, rd := 1, rn := 2, imm := 8, mode := .preIndex, writeback := true } gated)).map
      (fun t => (read64 0x208 t, t.reg 2, t.pc)) = some (0x77, 0x208, 0x104) := by decide
theorem test_gate_bl :
    (after (executeRecord { opcode := .bl, cond := .ne, imm := 0x40 } gated)).map (rfp 30) =
      some (0x999, ⟨false, true, false, false⟩, 0x104) ∧
    (after (executeRecord { opcode := .bl, cond := .eq, imm := 0x40 } gated)).map (rfp 30) =
      some (0x104, ⟨false, true, false, false⟩, 0x140) := by decide
theorem test_invalid_precedes_gate :
    (after (executeRecord { opcode := .invalid, cond := .nv, mode := .literal } gated)).map State.result =
      some (some (.haltedOnFault (.invalidInstruction 0x100))) := by decide
theorem test_records_refused :
    refusalOf (executeRecord { opcode := .ldur, mode := .literal } gated) = some .literalMode ∧
    refusalOf (executeRecord { opcode := .ldur, writeback := true } gated) = some .writebackMismatch ∧
    refusalOf (executeRecord { opcode := .stur, mode := .postIndex } gated) = some .writebackMismatch := by decide

/-! ### Memory and the host port (95_test_vectors V8, V9) -/

/-- The state an operation of the port leaves and its reply. -/
def port (c : Command) (s : State) : Option (State × Reply) := after (Port.apply c s)

/-- A machine with nothing in it. -/
def empty : State := State.construct (cfg false)

theorem test_write64_then_narrower_reads :
    (port (.write64 0x10 0x1122334455667788) empty).map (fun t =>
      [0x10, 0x17].map (fun a => (port (.read8 a) t.1).map Prod.snd) ++
      [0x10, 0x14].map (fun a => (port (.read32 a) t.1).map Prod.snd) ++
      [(port (.read64 0x11) t.1).map Prod.snd]) =
    some [some (.value 0x88), some (.value 0x11), some (.value 0x55667788), some (.value 0x11223344),
      some (.value 0x0011223344556677)] := by decide
theorem test_write8_low_bits :
    (port (.write8 0x30 0x1FF) empty).map (fun t => t.1.mem) = some [(0x30, 0xFF)] := by decide
theorem test_bounds :
    (port (.read8 0xFFF) empty).map Prod.snd = some (.value 0) ∧
    (port (.read8 0x1000) empty).map Prod.snd = some (.failed .outOfBounds) ∧
    (port (.read64 0xFFFFFFFFFFFFFFFF) empty).map Prod.snd = some (.failed .outOfBounds) ∧
    port (.write64 0xFFC 1) empty = some (empty, .failed .outOfBounds) := by decide
theorem test_load_program :
    (port (.loadProgram [1, 2] 0xFFE) empty).map (fun t => (t.1.mem, t.1.pc)) =
      some ([(0xFFE, 1), (0xFFF, 2)], 0xFFE) ∧
    port (.loadProgram [1, 2, 3] 0xFFE) empty = some (empty, .failed .outOfBounds) ∧
    (port (.loadProgram [] 0x1000) empty).map Prod.snd = some .done ∧
    (port (.loadProgram [] 0x1001) empty).map Prod.snd = some (.failed .outOfBounds) := by decide
theorem test_register_port :
    (port (.set 31 5) empty).map (fun t => (port (.get 31) t.1).map Prod.snd) = some (some (.word 0)) ∧
    port (.get 32) empty = some (empty, .failed .invalidRegisterIndex) ∧ port (.set 32 5) empty = some (empty, .done) ∧
    (port (.set 30 0xFFFFFFFFFFFFFFFF) empty).map (fun t => (port (.get 30) t.1).map Prod.snd) =
      some (some (.word 0xFFFFFFFFFFFFFFFF)) := by decide

/-! ### The step (95_test_vectors V9, P6) -/

/-- step() returns its outcome; run() on a halted machine takes one already-halted step and returns nothing. -/
theorem test_step_and_run_replies :
    port .step empty = some ({ empty with running := false, result := some (.haltedOnFault (.invalidInstruction 0)) },
      .stepped (some (.haltedOnFault (.invalidInstruction 0)))) ∧
    port (.run 5) { empty with running := false } =
      some ({ empty with running := false, result := some .alreadyHalted }, .done) := by decide

theorem test_fetch_fault : (after (step { empty with pc := 0xFFD })).map (fun t => (t.result, t.running)) =
    some (some (.haltedOnFault (.outOfBounds 0xFFD 0xFFD 4)), false) := by decide
theorem test_unaligned_fetch :
    (after (step { empty with pc := 0x101, mem := Memory.setBytes [] 0x101 (bytesOfWord 0x10001FE1#32) })).map
      (rfp 1) = some (7, ⟨false, false, false, false⟩, 0x105) := by decide
theorem test_breakpoint_before_fetch :
    after (step { empty with pc := 0x2000, breakpoints := [0x2000] }) =
      some { empty with pc := 0x2000, breakpoints := [0x2000], result := some .breakpointHit } := by decide
theorem test_halted_before_breakpoint :
    (after (step { empty with running := false, breakpoints := [0] })).map State.result =
      some (some .alreadyHalted) := by decide
theorem test_pc_wraps :
    (after (exec (.addi .al 1 31 1) { empty with pc := 0xFFFFFFFFFFFFFFFC })).map (rfp 1) =
      some (1, ⟨false, false, false, false⟩, 0) := by decide
/-- P6 (a): the first step from reset with nothing loaded. -/
theorem test_step_from_reset :
    (after (step State.reset)).map State.result = some (some (.haltedOnFault (.invalidInstruction 0))) := by decide

/-- Table words placed where the next step fetches them, run as the first instruction after reset. -/
theorem test_first_instruction :
    (after (step (State.reset.withFetchWord 32 0x10001401))).map (rfp 1) =
      some (5, ⟨false, false, false, false⟩, 4) ∧
    (after (step (State.reset.withFetchWord 32 0x903FFC41))).map (rfp 1) =
      some (0xFFFFFFFFFFFFFFFF, ⟨false, false, false, false⟩, 4) := by decide

/-! ### Witnesses: states and operands that meet the hypotheses of each statement -/

/-- Every operand range at both ends. -/
theorem witness_DecodeOfEncode :
    (∀ i ∈ [Instr.add .al 31 0 30 3, .and .al 0 31 1 0, .addi .al 1 2 2047, .subi .al 1 2 (-2048),
        .ldurOffset .al 1 2 32767, .sturPostIndex .al 1 2 (-32768), .b .al 134217724, .bl .al (-134217728),
        .br .al 0, .blr .al 31, .ret .al 1, .ret .al 30, .cbz .al 31 1048572, .cbnz .al 0 (-1048576)],
      i.wf false = true) ∧ (Instr.eori .al 1 2 (-1)).wf true = true := by decide
theorem witness_EncodeOfDecode :
    decode false 0x94000000#32 = .ok (.ret .al 30) ∧ decode true 0x90155441#32 = .ok (.eori .al 1 2 0x555) := by
  decide
theorem witness_DistinctWordsDistinctRecords :
    (decodeRecord false 0x94000000#32).opcode ≠ .invalid ∧
    decodeRecord false 0x94000000#32 = decodeRecord false 0x940003C0#32 := by decide
/-- A state at which the step meets the word, with everything the step's hypotheses ask. -/
theorem witness_InvalidSpace :
    (start false 0x78000041#32 []).running = true ∧
    (start false 0x78000041#32 []).pc ∉ (start false 0x78000041#32 []).breakpoints ∧
    (start false 0x78000041#32 []).fetch = some 0x78000041#32 ∧
    (decodeRecord (start false 0x78000041#32 []).cfg.decodeEori 0x78000041#32).opcode = .invalid := by decide
theorem witness_OpcodeMap_two_rows :
    0x68820023#32 &&& (Instr.add .al 0 0 0 0).rowMask = (Instr.add .al 0 0 0 0).rowMatch ∧
    0x68820023#32 &&& (Instr.add .al 1 2 3 3).rowMask = (Instr.add .al 1 2 3 3).rowMatch := by decide
theorem witness_OpcodeMap_no_row (j : Instr) : 0#32 &&& j.rowMask ≠ j.rowMatch := by
  rw [BitVec.zero_and]; cases j <;> simp [Instr.rowMatch]
/-- Conditions at flags that make them true and false; Z set, and all clear. -/
theorem witness_conditions :
    Cond.eq.holds ⟨false, true, false, false⟩ = true ∧ Cond.al.holds ⟨true, true, true, true⟩ = true ∧
    Cond.ne.holds ⟨false, false, false, false⟩ = true ∧
    (Instr.bl .ne 0x40).cond.holds gated.flags = false ∧ (Instr.bl .eq 0x40).cond.holds gated.flags = true := by
  decide
theorem witness_ConditionsAfterSubtraction : Cond.eq.holds gated.flags = true := by decide
theorem witness_FalseConditionSkips : (Instr.sturPreIndex .ne 1 2 8).cond.holds gated.flags = false := by decide
theorem witness_LogicalRegister :
    0x08C20023#32 &&& 0xFF20FC00#32 = 0x08000000#32 ∧ 0x28010021#32 &&& 0xFF20FC00#32 = 0x28000000#32 ∧
    0x88420023#32 &&& 0xFF20FC00#32 = 0x88000000#32 ∧ Cond.eq.holds gated.flags = true := by decide
theorem witness_ArithmeticRegister :
    0x48020023#32 &&& 0xFF20FC00#32 = 0x48000000#32 ∧ 0x68820023#32 &&& 0xFF20FC00#32 = 0x68000000#32 ∧
    Cond.eq.holds gated.flags = true := by decide
theorem witness_ArithmeticImmediate :
    0x103FFC41#32 &&& 0xFFC00000#32 = 0x10000000#32 ∧ 0x302003E1#32 &&& 0xFFC00000#32 = 0x30000000#32 ∧
    Cond.eq.holds gated.flags = true := by decide
theorem witness_LogicalImmediate :
    0x5003FC41#32 &&& 0xFFC00000#32 = 0x50000000#32 ∧ 0x70003C41#32 &&& 0xFFC00000#32 = 0x70000000#32 ∧
    Cond.eq.holds gated.flags = true := by decide
theorem witness_ExclusiveOrImmediate :
    0x90155441#32 &&& 0xFFC00000#32 = 0x90000000#32 ∧ Cond.eq.holds gated.flags = true := by decide

/-- A machine whose X2 is the address of the last eight bytes, 0xFF8. -/
def atEnd : State := start false 0#32 [(1, 0x1122334455667788), (2, 0xFF8)]

/-- For each mode an access of the last eight bytes and one that ends one byte past the memory. -/
theorem witness_LoadRegister :
    0x98002041#32 &&& 0xFC000000#32 = 0x98000000#32 ∧ 0xB8002041#32 &&& 0xFC000000#32 = 0xB8000000#32 ∧
    0xD8002041#32 &&& 0xFC000000#32 = 0xD8000000#32 ∧ Cond.al.holds atEnd.flags = true ∧
    (∀ m ∈ [Indexing.offset, .preIndex, .postIndex],
      (effectiveAddress m (atEnd.reg 2) 0).toNat + 8 = atEnd.cfg.memSize) ∧
    (∀ m ∈ [Indexing.offset, .preIndex],
      (effectiveAddress m (atEnd.reg 2) 1).toNat + 8 = atEnd.cfg.memSize + 1) ∧
    (effectiveAddress .postIndex ((atEnd.setReg 2 0xFF9).reg 2) 1).toNat + 8 = atEnd.cfg.memSize + 1 := by decide
theorem witness_StoreRegister :
    0x18002041#32 &&& 0xFC000000#32 = 0x18000000#32 ∧ 0x38002041#32 &&& 0xFC000000#32 = 0x38000000#32 ∧
    0x5BFFC041#32 &&& 0xFC000000#32 = 0x58000000#32 ∧ atEnd.Inv ∧ Cond.al.holds atEnd.flags = true ∧
    (∀ m ∈ [Indexing.offset, .preIndex, .postIndex],
      (effectiveAddress m (atEnd.reg 2) 0).toNat + 8 = atEnd.cfg.memSize) ∧
    (effectiveAddress .preIndex (atEnd.reg 2) 1).toNat + 8 = atEnd.cfg.memSize + 1 := by decide
theorem witness_Branch : 0x17FFFFFE#32 &&& 0xFC000000#32 = 0x14000000#32 ∧ Cond.eq.holds gated.flags = true := by decide
theorem witness_BranchWithLink :
    0x34000010#32 &&& 0xFC000000#32 = 0x34000000#32 ∧ Cond.eq.holds gated.flags = true := by decide
theorem witness_BranchToRegister :
    0x540000A0#32 &&& 0xFFFFFC1F#32 = 0x54000000#32 ∧ 0x94000000#32 &&& 0xFFFFFC1F#32 = 0x94000000#32 ∧
    Cond.eq.holds gated.flags = true := by decide
theorem witness_BranchWithLinkToRegister :
    0x740003C0#32 &&& 0xFFFFFC1F#32 = 0x74000000#32 ∧ Cond.eq.holds gated.flags = true := by decide
theorem witness_CompareAndBranch :
    0xB4000063#32 &&& 0xFF000000#32 = 0xB4000000#32 ∧ 0xD4FFFFC3#32 &&& 0xFF000000#32 = 0xD4000000#32 ∧
    Cond.eq.holds gated.flags = true := by decide
/-- A branch that retires, a load that faults, and a step that faults in its fetch. -/
theorem witness_NewPc :
    ((after (exec (.b .al 8) empty)).map State.result = some (some .continued)) ∧
    (∃ f : Fault, (after (exec (.ldurOffset .al 1 2 1) atEnd)).map State.result = some (some (.haltedOnFault f))) ∧
    (∃ f : Fault, (after (step { empty with pc := 0xFFD })).map State.result = some (some (.haltedOnFault f))) :=
  ⟨by decide, ⟨.outOfBounds 0x100 0xFF9 8, by decide⟩, ⟨.outOfBounds 0xFFD 0xFFD 4, by decide⟩⟩
theorem witness_RegistersReadAndWritten :
    (3 : Reg) ∉ regsWritten (.ldurPreIndex .al 1 2 8) ∧ (1 : Reg) ∉ regsRead (.ldurPreIndex .al 1 2 8) ∧
    (after (exec (.ldurPreIndex .al 1 2 8) atEnd)).isSome = true ∧
    (after (exec (.ldurPreIndex .al 1 2 8) (atEnd.setReg 1 9))).isSome = true ∧
    (1 : Reg) ∈ regsWritten (.ldurPreIndex .al 1 2 (-8)) ∧ Cond.al.holds atEnd.flags = true ∧
    (after (exec (.ldurPreIndex .al 1 2 (-8)) atEnd)).map State.result = some (some .continued) ∧
    (after (exec (.ldurPreIndex .al 1 2 (-8)) (atEnd.setReg 1 9))).isSome = true := by decide
/-- An opcode that writes no flag, one that writes no memory, and both executed. -/
theorem witness_FlagAndMemoryWriters :
    (after (exec (.and .al 1 2 3 0) empty)).isSome = true ∧
    (Instr.and .al 1 2 3 0).opcode ∉ [Opcode.add, Opcode.sub, Opcode.addi, Opcode.subi] ∧
    (after (exec (.add .al 1 2 3 0) empty)).isSome = true ∧ (Instr.add .al 1 2 3 0).opcode ≠ .stur := by decide
theorem witness_StepLeavesHostState : (after (step (start false 0x10001401#32 []))).isSome = true := by decide
/-- Reads that end at the last byte and one past it. -/
theorem witness_MemoryRead :
    (0xFF8#64).toNat + 8 = empty.cfg.memSize ∧ (0xFF9#64).toNat + 8 = empty.cfg.memSize + 1 ∧
    (4, Command.read32 0xFFC) ∈ [(1, Command.read8 0xFFC), (4, Command.read32 0xFFC), (8, Command.read64 0xFFC)] ∧
    (0xFFF#64).toNat + 1 = empty.cfg.memSize ∧ (0xFFC#64).toNat + 4 = empty.cfg.memSize ∧
    (0x1000#64).toNat + 1 = empty.cfg.memSize + 1 ∧ (0xFFD#64).toNat + 4 = empty.cfg.memSize + 1 := by decide
theorem witness_MemoryWrite :
    empty.Inv ∧ (0xFFC#64).toNat + 4 = empty.cfg.memSize ∧ (0xFFD#64).toNat + 4 = empty.cfg.memSize + 1 ∧
    (4, Command.write32 0xFFC 1) ∈
      [(1, Command.write8 0xFFC 1), (4, Command.write32 0xFFC 1), (8, Command.write64 0xFFC 1)] ∧
    (0xFFF#64).toNat + 1 = empty.cfg.memSize ∧ (0xFF8#64).toNat + 8 = empty.cfg.memSize := by decide
theorem witness_BoundsCheck :
    ¬(0xFF9#64).toNat + 8 ≤ empty.cfg.memSize ∧ 2 ^ 64 ≤ (0xFFFFFFFFFFFFFFFF#64).toNat + 1 ∧
    (0x1000#64).toNat = empty.cfg.memSize ∧ (0xFFF#64).toNat + 1 = empty.cfg.memSize := by decide
theorem witness_WriteThenRead :
    empty.Inv ∧ (∀ n ∈ [1, 4, 8], (BitVec.ofNat 64 (0x1000 - n)).toNat + n = empty.cfg.memSize) ∧
    0xFF < 2 ^ (8 * 1) ∧ 0xFFFFFFFF < 2 ^ (8 * 4) ∧ 0xFFFFFFFFFFFFFFFF < 2 ^ (8 * 8) := by decide
theorem witness_StoreThenLoad :
    atEnd.Inv ∧ (atEnd.reg 2 + 0).toNat + 8 = atEnd.cfg.memSize := by decide
theorem witness_FetchSeesStore :
    atEnd.Inv ∧ (atEnd.reg 2 + 0).toNat + 8 = atEnd.cfg.memSize ∧ (0 : Nat) ≤ 4 ∧ (4 : Nat) ≤ 4 := by decide
theorem witness_StepWhenHalted : ({ empty with running := false } : State).running = false := by decide
theorem witness_StepAtBreakpoint :
    ({ empty with breakpoints := [0] } : State).running = true ∧
    ({ empty with breakpoints := [0] } : State).pc ∈ ({ empty with breakpoints := [0] } : State).breakpoints := by decide
/-- The last word of the memory and the first address past it from which no word can be fetched. -/
theorem witness_StepFetch :
    (0xFFC#64).toNat + 4 = empty.cfg.memSize ∧ (0xFFD#64).toNat + 4 = empty.cfg.memSize + 1 ∧
    ({ empty with pc := 0xFFD } : State).running = true ∧
    ({ empty with pc := 0xFFD } : State).pc ∉ ({ empty with pc := 0xFFD } : State).breakpoints := by decide
theorem witness_StepRunsDecoded :
    (start false 0x10001401#32 []).running = true ∧
    (start false 0x10001401#32 []).pc ∉ (start false 0x10001401#32 []).breakpoints ∧
    (start false 0x10001401#32 []).pc.toNat + 4 ≤ (start false 0x10001401#32 []).cfg.memSize ∧
    decode (start false 0x10001401#32 []).cfg.decodeEori
      (wordOfBytes ((start false 0x10001401#32 []).byte 0x100) ((start false 0x10001401#32 []).byte 0x101)
        ((start false 0x10001401#32 []).byte 0x102) ((start false 0x10001401#32 []).byte 0x103)) =
      .ok (.addi .al 1 0 5) := by decide
theorem witness_StepOutcomes :
    (after (step { empty with running := false })).map State.result = some (some .alreadyHalted) ∧
    (after (step { empty with breakpoints := [0] })).map State.result = some (some .breakpointHit) ∧
    (after (step (start false 0x10001401#32 []))).map State.result = some (some .continued) ∧
    (after (step empty)).map State.result = some (some (.haltedOnFault (.invalidInstruction 0))) := by decide
theorem witness_FaultChangesOnlyRunning :
    (after (step (start false 0x38002041#32 [(2, 0xFF8)]))).map State.result =
      some (some (.haltedOnFault (.outOfBounds 0x100 0x1000 8))) := by decide
/-- Each of the causes of a fault: the fetch, an INVALID word, a load and a store. -/
theorem witness_FaultCauses :
    empty.cfg.memSize < ({ empty with pc := 0xFFD } : State).pc.toNat + 4 ∧
    (decodeRecord empty.cfg.decodeEori 0#32).opcode = .invalid ∧
    decode false 0x98000441#32 = .ok (ldurOf .offset .al 1 2 1) ∧
    decode false 0x38000441#32 = .ok (sturOf .preIndex .al 1 2 1) ∧
    atEnd.cfg.memSize < (effectiveAddress .preIndex (atEnd.reg 2) 1).toNat + 8 := by decide
theorem witness_StepIsExecuteStage :
    (start false 0x10001401#32 []).running = true ∧
    (start false 0x10001401#32 []).pc ∉ (start false 0x10001401#32 []).breakpoints ∧
    (start false 0x10001401#32 []).fetch = some 0x10001401#32 := by decide
/-- An INVALID record, a LITERAL one, one of each disagreement, and one that is executed, an unused field of it
not at its default. -/
theorem witness_ExecuteStageRecords :
    Record.ofInvalid.opcode = .invalid ∧
    ({ opcode := .add, mode := .literal } : Record).opcode ≠ .invalid ∧
    ¬(({ opcode := .ldur, writeback := true } : Record).writeback = true ↔
      ({ opcode := .ldur, writeback := true } : Record).mode = .preIndex ∨
      ({ opcode := .ldur, writeback := true } : Record).mode = .postIndex) ∧
    ¬(({ opcode := .stur, mode := .postIndex } : Record).writeback = true ↔
      ({ opcode := .stur, mode := .postIndex } : Record).mode = .preIndex ∨
      ({ opcode := .stur, mode := .postIndex } : Record).mode = .postIndex) ∧
    (({ opcode := .stur, rm := 5, mode := .preIndex, writeback := true } : Record).writeback = true ↔
      ({ opcode := .stur, rm := 5, mode := .preIndex, writeback := true } : Record).mode = .preIndex ∨
      ({ opcode := .stur, rm := 5, mode := .preIndex, writeback := true } : Record).mode = .postIndex) := by decide
theorem witness_FetchWordRuns :
    ({ empty with pc := 0xFFC } : State).Inv ∧ ({ empty with pc := 0xFFC } : State).pc.toNat + 4 = empty.cfg.memSize ∧
    decodeTableWord 32 0x90155441 = some (.eori .al 1 2 0x555) ∧
    decodeTableWord 32 0x10001401 = some (.addi .al 1 0 5) := by decide
theorem witness_StepKeepsInvariant : atEnd.Inv ∧ (after (step atEnd)).isSome = true := by decide
theorem witness_HostKeepsInvariant : empty.Inv ∧ (port (.write64 0xFF8 1) empty).isSome = true := by decide
theorem witness_ResetIsSound : State.reset.Inv := by decide
/-- A reset that sets `running`, a step and a run that clear it, and a breakpoint hit. -/
theorem witness_RunFlagWriters :
    (port .reset { empty with running := false }).map (fun t => t.1.running) = some true ∧
    (port .step empty).map (fun t => t.1.running) = some false ∧
    (port (.run 3) empty).map (fun t => t.1.running) = some false ∧
    (after (step { empty with breakpoints := [0] })).map State.result = some (some .breakpointHit) := by decide
theorem witness_HaltedUntilReset :
    Command.reset ∉ [Command.step, .setPc 4, .write8 0 1, .run 2] ∧
    ({ empty with running := false } : State).running = false := by decide
/-- P6 (c): B #0 retires at every step; P6 (a): cleared memory ends the run at its first step. -/
theorem witness_RunEndsAtFirstStop :
    (after (Port.run 3 (start false 0x14000000#32 []))).map (fun t => (t.result, t.pc)) =
      some (some .continued, 0x100) ∧
    (after (Port.run 3 empty)).map State.result = some (some (.haltedOnFault (.invalidInstruction 0))) := by decide
theorem witness_BreakpointSet :
    empty.Inv ∧ (8 : Word) ∉ empty.breakpoints ∧ ({ empty with breakpoints := [4, 8] } : State).Inv ∧
    (8 : Word) ∈ ({ empty with breakpoints := [4, 8] } : State).breakpoints ∧
    (port (.setBreakpoint 8) empty).map (fun t => t.1.breakpoints) = some [8] ∧
    (after (step { empty with breakpoints := [0] })).map State.result = some (some .breakpointHit) := by decide
/-- The first and the last index of each range: 0 and 30, 31, 32. -/
theorem witness_RegisterPort :
    (port (.set 0 7) empty).map (fun t => (port (.get 0) t.1).map Prod.snd) = some (some (.word 7)) ∧
    (port (.set 30 7) empty).map (fun t => (port (.get 30) t.1).map Prod.snd) = some (some (.word 7)) ∧
    (port (.get 31) empty).map Prod.snd = some (.word 0) ∧
    (port (.get 32) empty).map Prod.snd = some (.failed .invalidRegisterIndex) := by decide
theorem witness_LoadProgram :
    empty.Inv ∧ (0xFFE#64).toNat + [(1 : Byte), 2].length = empty.cfg.memSize ∧
    (0xFFE#64).toNat + [(1 : Byte), 2, 3].length = empty.cfg.memSize + 1 ∧
    (0x1000#64).toNat + ([] : List Byte).length = empty.cfg.memSize := by decide

end Sys2Proof.Tests
end

section
/-! SUPPORT and the statements of 10_state. First what a retired instruction, a step and a command of the host
port can do, once each; then the breakpoint set and the indexed register port; last the five statements. -/

namespace Sys2Proof.Machine

/-! ### The two ends of an executed instruction: a fault taken, or retired -/

namespace State

/-- A state that shares the host's fields with `s` retires at its target (40_execution_cycle R107). -/
theorem retiredAt_retire {s u : State} (target : Word) (hrunning : u.running = s.running) (hsp : u.sp = s.sp)
    (hbreakpoints : u.breakpoints = s.breakpoints) (hcfg : u.cfg = s.cfg) :
    s.RetiredAt (u.retire target) target := by
  simp [RetiredAt, hrunning, hsp, hbreakpoints, hcfg]

theorem retire_retiredAt (s : State) (target : Word) : s.RetiredAt (s.retire target) target :=
  retiredAt_retire target rfl rfl rfl rfl

theorem link_retire_retiredAt (s : State) (target : Word) : s.RetiredAt (s.link.retire target) target :=
  retiredAt_retire target (by simp) (by simp) (by simp) (by simp)

theorem finishLogical_retiredAt (s : State) (rd : Reg) (v : Word) :
    s.RetiredAt (s.finishLogical rd v) (s.pc + 4) :=
  retiredAt_retire s.nextPc (by simp) (by simp) (by simp) (by simp)

theorem finishArith_retiredAt (s : State) (rd : Reg) (r : Word × Flags) :
    s.RetiredAt (s.finishArith rd r) (s.pc + 4) :=
  retiredAt_retire s.nextPc (by simp) (by simp) (by simp) (by simp)

/-- A load takes its fault or retires (43_load_store R171). -/
theorem load_raises_or_retires (s : State) (m : Indexing) (rt rn : Reg) (imm : Word) :
    (∃ f, s.load m rt rn imm = s.raise f) ∨ s.RetiredAt (s.load m rt rn imm) (s.pc + 4) := by
  obtain ⟨-, hfault⟩ | ⟨-, hload⟩ := load_cases s m rt rn imm
  · exact .inl ⟨_, hfault⟩
  · rw [hload]
    exact .inr (retiredAt_retire s.nextPc (by simp) (by simp) (by simp) (by simp))

/-- A store takes its fault or retires (43_load_store R172). -/
theorem store_raises_or_retires (s : State) (m : Indexing) (rt rn : Reg) (imm : Word) :
    (∃ f, s.store m rt rn imm = s.raise f) ∨ s.RetiredAt (s.store m rt rn imm) (s.pc + 4) := by
  obtain ⟨-, hfault⟩ | ⟨-, hstore⟩ := store_cases s m rt rn imm
  · exact .inl ⟨_, hfault⟩
  · rw [hstore]
    exact .inr (retiredAt_retire s.nextPc (by simp) (by simp) (by simp) (by simp))

end State

open State

/-- Every instruction whose condition holds takes a fault or retires at its row of the table of 10_state
R17. -/
theorem body_raises_or_retires (i : Instr) (s : State) :
    (∃ f, body i s = s.raise f) ∨ s.RetiredAt (body i s) (executedPc i s) := by
  cases i with
  | and | eor | orr | andi | orri | eori => exact .inr (finishLogical_retiredAt ..)
  | add | sub | addi | subi => exact .inr (finishArith_retiredAt ..)
  | sturOffset | sturPreIndex | sturPostIndex => exact store_raises_or_retires ..
  | ldurOffset | ldurPreIndex | ldurPostIndex => exact load_raises_or_retires ..
  | b | br | ret | cbz => exact .inr (retire_retiredAt ..)
  | bl | blr => exact .inr (link_retire_retiredAt ..)
  | cbnz c rt imm =>
    have htarget : executedPc (.cbnz c rt imm) s = if s.reg rt ≠ 0#64 then s.branchTarget imm else s.nextPc := by
      rw [ite_not]; rfl
    rw [htarget]
    exact .inr (retire_retiredAt ..)

/-- The pc of an instruction that retires: its row of R17, and the next instruction's where the condition
fails. -/
def retiredPc (i : Instr) (s : State) : Word :=
  if i.cond.holds s.flags = true then executedPc i s else s.pc + 4

/-- Every instruction takes a fault or retires, executed or not (40_execution_cycle R106, R107). -/
theorem exec_raises_or_retires {i : Instr} {s t : State} (h : exec i s = .next t) :
    (∃ f, t = s.raise f) ∨ s.RetiredAt t (retiredPc i s) := by
  rw [exec_eq] at h
  cases h
  unfold retiredPc
  split
  · exact body_raises_or_retires i s
  · exact .inr (retire_retiredAt s s.nextPc)

/-- The four outcomes of a step, with what the host can see of each (40_execution_cycle R100). -/
theorem step_outcomes {s t : State} (h : step s = .next t) :
    (s.running = false ∧ t = s.report .alreadyHalted) ∨
    (s.running = true ∧ s.pc ∈ s.breakpoints ∧ t = s.report .breakpointHit) ∨
    (s.running = true ∧ s.pc ∉ s.breakpoints ∧ ∃ f, t = s.raise f) ∨
    (s.running = true ∧ s.pc ∉ s.breakpoints ∧ ∃ target, s.RetiredAt t target) := by
  obtain ⟨hr, ht⟩ | ⟨hr, hb, ht⟩ | ⟨hr, hb, -, ht⟩ | ⟨-, -, hr, hb, -, -, ht⟩ | ⟨-, i, hr, hb, -, -, ht⟩ :=
    step_cases h
  · cases ht; exact .inl ⟨hr, rfl⟩
  · cases ht; exact .inr (.inl ⟨hr, hb, rfl⟩)
  · cases ht; exact .inr (.inr (.inl ⟨hr, hb, _, rfl⟩))
  · cases ht; exact .inr (.inr (.inl ⟨hr, hb, _, rfl⟩))
  · rcases exec_raises_or_retires ht.symm with hfault | hretired
    · exact .inr (.inr (.inl ⟨hr, hb, hfault⟩))
    · exact .inr (.inr (.inr ⟨hr, hb, _, hretired⟩))

/-! ### What a step does to the pc, the run flag and the breakpoint set -/

theorem exec_pc_of_not_continued {i : Instr} {s t : State} (h : exec i s = .next t)
    (hresult : t.result ≠ some .continued) : t.pc = s.pc := by
  obtain ⟨f, rfl⟩ | ⟨-, hcontinued, -⟩ := exec_raises_or_retires h
  · rfl
  · exact absurd hcontinued hresult

theorem exec_pc_of_continued {i : Instr} {s t : State} (h : exec i s = .next t)
    (hresult : t.result = some .continued) : t.pc = retiredPc i s := by
  obtain ⟨f, rfl⟩ | ⟨hpc, -⟩ := exec_raises_or_retires h
  · simp at hresult
  · exact hpc

theorem step_pc_of_not_continued {s t : State} (h : step s = .next t) (hresult : t.result ≠ some .continued) :
    t.pc = s.pc := by
  obtain ⟨-, rfl⟩ | ⟨-, -, rfl⟩ | ⟨-, -, f, rfl⟩ | ⟨-, -, target, -, hcontinued, -⟩ := step_outcomes h
  · rfl
  · rfl
  · rfl
  · exact absurd hcontinued hresult

/-- A step while Halted reports it and changes nothing else (60_exceptions R243). -/
theorem step_of_halted {s : State} (h : s.running = false) : step s = .next (s.report .alreadyHalted) := by
  simp [step, h]

theorem step_keeps_halted {s t : State} (hs : s.running = false) (h : step s = .next t) : t.running = false := by
  rw [step_of_halted hs] at h
  cases h
  exact hs

/-- A step that leaves a Running machine Halted ended in a fault (60_exceptions R241). -/
theorem step_running_or_fault {s t : State} (hs : s.running = true) (h : step s = .next t) :
    t.running = true ∨ ∃ f, t.result = some (.haltedOnFault f) := by
  obtain ⟨hr, -⟩ | ⟨-, -, rfl⟩ | ⟨-, -, f, rfl⟩ | ⟨-, -, target, -, -, hrunning, -⟩ := step_outcomes h
  · simp [hs] at hr
  · exact .inl hs
  · exact .inr ⟨f, rfl⟩
  · exact .inl (hrunning.trans hs)

theorem running_of_step_continued {s t : State} (hs : s.running = true) (h : step s = .next t)
    (hresult : t.result = some .continued) : t.running = true := by
  obtain hrunning | ⟨f, hfault⟩ := step_running_or_fault hs h
  · exact hrunning
  · simp [hfault] at hresult

/-- The breakpoint comparator answers for a Running machine alone, and exactly at a member (10_state R23,
40_execution_cycle R102). -/
theorem step_breakpointHit_iff {s t : State} (h : step s = .next t) :
    t.result = some .breakpointHit ↔ s.running = true ∧ s.pc ∈ s.breakpoints := by
  obtain ⟨hr, rfl⟩ | ⟨hr, hb, rfl⟩ | ⟨-, hb, f, rfl⟩ | ⟨-, hb, target, -, hcontinued, -⟩ := step_outcomes h
  · simp [hr]
  · simp [hr, hb]
  · simp [hb]
  · simp [hcontinued, hb]

theorem running_of_step_breakpointHit {s t : State} (h : step s = .next t)
    (hresult : t.result = some .breakpointHit) : t.running = true := by
  obtain hrunning | ⟨f, hfault⟩ := step_running_or_fault ((step_breakpointHit_iff h).mp hresult).1 h
  · exact hrunning
  · simp [hfault] at hresult

theorem step_keeps_breakpoints {s t : State} (h : step s = .next t) : t.breakpoints = s.breakpoints := by
  obtain ⟨-, rfl⟩ | ⟨-, -, rfl⟩ | ⟨-, -, f, rfl⟩ | ⟨-, -, target, -, -, -, -, hbreakpoints, -⟩ := step_outcomes h
  · rfl
  · rfl
  · rfl
  · exact hbreakpoints

/-! ### A run -/

/-- What every continued step keeps, holds at the end of a run or before its last step
(40_execution_cycle R120). -/
theorem Port.run_keeps_until_last (P : State → Prop)
    (hP : ∀ s t, P s → step s = .next t → t.result = some .continued → P t) {k : Nat} {s t : State} (hs : P s)
    (h : Port.run k s = .next t) : P t ∨ ∃ u, P u ∧ step u = .next t := by
  induction k generalizing s with
  | zero => cases h; exact .inl hs
  | succ k ih =>
    rw [Port.run] at h
    cases hstep : step s with
    | next u =>
      simp only [hstep] at h
      split at h
      · next hcontinued => exact ih (hP s u hs hstep hcontinued) h
      · cases h; exact .inr ⟨s, hs, hstep⟩
    | fault f => simp [hstep] at h
    | refused r => simp [hstep] at h

theorem Port.run_keeps_halted {k : Nat} {s t : State} (hs : s.running = false) (h : Port.run k s = .next t) :
    t.running = false :=
  Port.run_keeps (·.running = false) (fun _ _ => step_keeps_halted) k s t hs h

theorem Port.run_running_or_fault {k : Nat} {s t : State} (hs : s.running = true) (h : Port.run k s = .next t) :
    t.running = true ∨ ∃ f, t.result = some (.haltedOnFault f) := by
  obtain hrunning | ⟨u, hu, hlast⟩ :=
    Port.run_keeps_until_last (·.running = true) (fun _ _ => running_of_step_continued) hs h
  · exact .inl hrunning
  · exact step_running_or_fault hu hlast

theorem Port.run_keeps_breakpoints {k : Nat} {s t : State} (h : Port.run k s = .next t) :
    t.breakpoints = s.breakpoints :=
  Port.run_keeps (·.breakpoints = s.breakpoints) (fun _ _ hu hstep => (step_keeps_breakpoints hstep).trans hu) k s t
    rfl h

/-! ### The commands of the host port -/

/-- The fields that only reset(), step, run and the breakpoint operations write: the parameters, the run flag,
the breakpoint set and the last outcome (10_state R22, R23). -/
structure State.SameControl (s t : State) : Prop where
  cfg : t.cfg = s.cfg
  running : t.running = s.running
  breakpoints : t.breakpoints = s.breakpoints
  result : t.result = s.result

theorem State.SameControl.refl (s : State) : s.SameControl s := ⟨rfl, rfl, rfl, rfl⟩

theorem Port.replyRead_sameControl (s : State) (e : Except PortError Nat) :
    s.SameControl (Port.replyRead s e).1 := by
  cases e <;> exact .refl s

theorem Port.replyWord_sameControl (s : State) (e : Except PortError Word) :
    s.SameControl (Port.replyWord s e).1 := by
  cases e <;> exact .refl s

theorem Port.write_sameControl (s : State) (n : Nat) (a : Word) (v : Nat) :
    s.SameControl (Port.attempt s (Port.write s n a v)).1 := by
  rw [Port.write_eq]
  split <;> exact ⟨rfl, rfl, rfl, rfl⟩

theorem Port.loadProgram_sameControl (s : State) (bytes : List Byte) (a : Word) :
    s.SameControl (Port.attempt s (Port.loadProgram s bytes a)).1 := by
  rw [Port.loadProgram_eq]
  split <;> exact ⟨rfl, rfl, rfl, rfl⟩

theorem Port.set_sameControl (s : State) (i : Nat) (v : Word) : s.SameControl (Port.set s i v) := by
  unfold Port.set
  split
  · constructor <;> simp
  · exact .refl s

/-- Everything a command of the host port can do to the control fields (70_reset_and_hazards R273). -/
theorem Port.apply_cases {c : Command} {s t : State} {r : Reply} (h : Port.apply c s = .next (t, r)) :
    s.SameControl t ∨
    (c = .reset ∧ t = Port.reset s) ∨
    (c = .step ∧ step s = .next t) ∨
    (∃ k, c = .run k ∧ Port.run k s = .next t) ∨
    (∃ a, c = .setBreakpoint a ∧ t = Port.setBreakpoint s a) ∨
    (∃ a, c = .clearBreakpoint a ∧ t = Port.clearBreakpoint s a) := by
  have same {p : State × Reply} (hp : s.SameControl p.1)
      (e : (.next p : Host.Outcome (State × Reply) Fault Refusal) = .next (t, r)) : s.SameControl t := by
    cases e; exact hp
  cases c with
  | reset => cases h; exact .inr (.inl ⟨rfl, rfl⟩)
  | step => exact .inr (.inr (.inl ⟨rfl, (Port.stepped_eq_next.mp h).1⟩))
  | run k => exact .inr (.inr (.inr (.inl ⟨k, rfl, (Port.finished_eq_next.mp h).1⟩)))
  | setBreakpoint a => cases h; exact .inr (.inr (.inr (.inr (.inl ⟨a, rfl, rfl⟩))))
  | clearBreakpoint a => cases h; exact .inr (.inr (.inr (.inr (.inr ⟨a, rfl, rfl⟩))))
  | loadProgram bytes a => exact .inl (same (Port.loadProgram_sameControl s bytes a) h)
  | set i v => exact .inl (same (Port.set_sameControl s i v) h)
  | write8 | write32 | write64 => exact .inl (same (Port.write_sameControl ..) h)
  | get i => exact .inl (same (Port.replyWord_sameControl s _) h)
  | read8 | read32 | read64 => exact .inl (same (Port.replyRead_sameControl s _) h)
  | getPc | getSp | getFlags => exact .inl (same (.refl s) h)
  | setPc | setSp | setFlags => exact .inl (same ⟨rfl, rfl, rfl, rfl⟩ h)

/-- reset() alone sets the run flag (10_state R22). -/
theorem Port.apply_sets_running {c : Command} {s t : State} {r : Reply} (h : Port.apply c s = .next (t, r))
    (hs : s.running = false) (ht : t.running = true) : c = .reset := by
  have kept : t.running ≠ false := by simp [ht]
  obtain hsame | ⟨hc, -⟩ | ⟨-, hstep⟩ | ⟨k, -, hrun⟩ | ⟨a, -, rfl⟩ | ⟨a, -, rfl⟩ := Port.apply_cases h
  · exact absurd (hsame.running.trans hs) kept
  · exact hc
  · exact absurd (step_keeps_halted hs hstep) kept
  · exact absurd (Port.run_keeps_halted hs hrun) kept
  · exact absurd hs kept
  · exact absurd hs kept

/-- A step or run that ended in a fault alone clears the run flag (10_state R22). -/
theorem Port.apply_clears_running {c : Command} {s t : State} {r : Reply} (h : Port.apply c s = .next (t, r))
    (hs : s.running = true) (ht : t.running = false) :
    (c = .step ∨ ∃ k, c = .run k) ∧ ∃ f, t.result = some (.haltedOnFault f) := by
  have kept : t.running ≠ true := by simp [ht]
  obtain hsame | ⟨-, rfl⟩ | ⟨hc, hstep⟩ | ⟨k, hc, hrun⟩ | ⟨a, -, rfl⟩ | ⟨a, -, rfl⟩ := Port.apply_cases h
  · exact absurd (hsame.running.trans hs) kept
  · exact absurd rfl kept
  · exact ⟨.inl hc, (step_running_or_fault hs hstep).resolve_left kept⟩
  · exact ⟨.inr ⟨k, hc⟩, (Port.run_running_or_fault hs hrun).resolve_left kept⟩
  · exact absurd hs kept
  · exact absurd hs kept

/-- reset() and the two breakpoint operations alone change the breakpoint set (10_state R23). -/
theorem Port.apply_changes_breakpoints {c : Command} {s t : State} {r : Reply}
    (h : Port.apply c s = .next (t, r)) (hne : t.breakpoints ≠ s.breakpoints) :
    c = .reset ∨ (∃ a, c = .setBreakpoint a) ∨ ∃ a, c = .clearBreakpoint a := by
  obtain hsame | ⟨hc, -⟩ | ⟨-, hstep⟩ | ⟨k, -, hrun⟩ | ⟨a, hc, -⟩ | ⟨a, hc, -⟩ := Port.apply_cases h
  · exact absurd hsame.breakpoints hne
  · exact .inl hc
  · exact absurd (step_keeps_breakpoints hstep) hne
  · exact absurd (Port.run_keeps_breakpoints hrun) hne
  · exact .inr (.inl ⟨a, hc⟩)
  · exact .inr (.inr ⟨a, hc⟩)

/-! ### The breakpoint set as a strictly rising list -/

/-- A sound breakpoint set is determined by its members. -/
theorem breakpoints_ext {bs cs : List Word} (hbs : bs.Pairwise fun x y => x.toNat < y.toNat)
    (hcs : cs.Pairwise fun x y => x.toNat < y.toNat) (hmem : ∀ a, a ∈ bs ↔ a ∈ cs) : bs = cs :=
  have : Std.Asymm fun x y : Word => x.toNat < y.toNat := ⟨fun _ _ => Nat.lt_asymm⟩
  hbs.eq_of_mem_iff hcs hmem

theorem insertAddress_idem (a : Word) (bs : List Word) :
    insertAddress a (insertAddress a bs) = insertAddress a bs := by
  induction bs with
  | nil => simp [insertAddress]
  | cons b bs ih =>
    by_cases hlt : a.toNat < b.toNat
    · simp [insertAddress, hlt]
    · by_cases heq : a = b
      · simp [insertAddress, heq]
      · simp [insertAddress, hlt, heq, ih]

theorem insertAddress_comm (a b : Word) {bs : List Word} (h : bs.Pairwise fun x y => x.toNat < y.toNat) :
    insertAddress b (insertAddress a bs) = insertAddress a (insertAddress b bs) := by
  refine breakpoints_ext (pairwise_insertAddress b (pairwise_insertAddress a h))
    (pairwise_insertAddress a (pairwise_insertAddress b h)) fun c => ?_
  simp only [mem_insertAddress, or_left_comm]

theorem insertAddress_of_mem {a : Word} {bs : List Word} (h : bs.Pairwise fun x y => x.toNat < y.toNat)
    (ha : a ∈ bs) : insertAddress a bs = bs := by
  refine breakpoints_ext (pairwise_insertAddress a h) h fun c => ?_
  rw [mem_insertAddress]
  exact or_iff_right_of_imp fun hc => hc ▸ ha

theorem removeAddress_of_not_mem {a : Word} {bs : List Word} (ha : a ∉ bs) : removeAddress a bs = bs :=
  List.filter_eq_self.mpr fun _ hb => bne_iff_ne.mpr fun hba => ha (hba ▸ hb)

theorem removeAddress_idem (a : Word) (bs : List Word) :
    removeAddress a (removeAddress a bs) = removeAddress a bs :=
  removeAddress_of_not_mem fun h => ((mem_removeAddress a a bs).mp h).1 rfl

@[simp] theorem Port.setBreakpoint_breakpoints (s : State) (a : Word) :
    (Port.setBreakpoint s a).breakpoints = insertAddress a s.breakpoints := rfl

@[simp] theorem Port.clearBreakpoint_breakpoints (s : State) (a : Word) :
    (Port.clearBreakpoint s a).breakpoints = removeAddress a s.breakpoints := rfl

/-! ### The indexed register port -/

theorem State.reg_ofNat (s : State) {i : Nat} (h : i < 31) : s.reg (BitVec.ofNat 5 i) = s.x[i] := by
  have hi : (BitVec.ofNat 5 i).toNat = i := by simp; omega
  simp [State.reg, hi, h]

theorem reg_ofNat_ne_xzr {i : Nat} (h : i < 31) : BitVec.ofNat 5 i ≠ xzr := by
  unfold xzr; bv_omega

theorem reg_ofNat_inj {i j : Nat} (hi : i < 31) (hj : j < 31) : BitVec.ofNat 5 i = BitVec.ofNat 5 j ↔ i = j := by
  constructor
  · intro h; bv_omega
  · exact congrArg _

theorem State.setReg_eq (s : State) (r : Reg) (v : Word) : s.setReg r v = { s with x := (s.setReg r v).x } := by
  apply State.ext_fields <;> simp

/-- The strict read of the port, index by index (10_state R15). -/
theorem Port.get_of_lt (s : State) {i : Nat} (h : i < 32) : Port.get s i = .ok (s.reg (BitVec.ofNat 5 i)) :=
  if_pos h

theorem Port.get_of_ge (s : State) {i : Nat} (h : 32 ≤ i) : Port.get s i = .error .invalidRegisterIndex :=
  if_neg (by omega)

/-- The permissive write of the port, index by index (10_state R15). -/
theorem Port.set_of_lt (s : State) {i : Nat} (v : Word) (h : i < 32) :
    Port.set s i v = s.setReg (BitVec.ofNat 5 i) v :=
  if_pos h

theorem Port.set_of_ge (s : State) {i : Nat} (v : Word) (h : 31 ≤ i) : Port.set s i v = s := by
  obtain rfl | hi := h.eq_or_lt
  · exact State.setReg_zero s v
  · exact if_neg (by omega)

theorem Port.get_set (s : State) {i j : Nat} (v : Word) (hi : i < 31) (hj : j < 31) :
    Port.get (Port.set s i v) j = if j = i then .ok v else Port.get s j := by
  rw [Port.set_of_lt s v (by omega), Port.get_of_lt _ (by omega), Port.get_of_lt _ (by omega), State.reg_setReg]
  simp only [reg_ofNat_inj hj hi, reg_ofNat_ne_xzr hj, ne_eq, not_false_eq_true, and_true]
  split <;> rfl

/-! ### The statements -/

/-- Settles O24: an instruction takes its fault, the pc kept, or retires at its row of the table of R17, and
a step that does not continue keeps the pc. -/
theorem newPc : Obligations.NewPc :=
  ⟨fun _ _ _ => exec_pc_of_continued, fun _ _ _ => exec_pc_of_not_continued, fun _ _ => step_pc_of_not_continued⟩

/-- Settles O48, over the commands of the host port: a run is steps, and each other command but reset() keeps
the flag. -/
theorem runFlagWriters : Obligations.RunFlagWriters :=
  ⟨fun _ => rfl, fun _ => rfl, fun _ _ _ _ h => ⟨Port.apply_sets_running h, Port.apply_clears_running h⟩,
    fun _ _ => running_of_step_breakpointHit, fun _ => step_of_halted⟩

/-- Settles O51: the operations of the set on its strictly rising list, and what each command and step does
to that list. -/
theorem breakpointSet : Obligations.BreakpointSet := by
  refine ⟨fun s a b => ⟨mem_insertAddress a b _, mem_removeAddress a b _, ?_, ?_, rfl⟩,
    fun s a b hinv => ?_, fun _ _ _ _ => Port.apply_changes_breakpoints, fun s t hs h => ?_⟩
  · simp [Port.setBreakpoint, insertAddress_idem]
  · simp [Port.clearBreakpoint, removeAddress_idem]
  · obtain ⟨-, -, hrising, -⟩ := hinv
    refine ⟨?_, fun ha => ?_, fun ha => ?_⟩
    · simp [Port.setBreakpoint, insertAddress_comm a b hrising]
    · simp [Port.setBreakpoint, insertAddress_of_mem hrising ha]
    · simp [Port.clearBreakpoint, removeAddress_of_not_mem ha]
  · simp [step_breakpointHit_iff h, hs]

/-- Settles O52: the indices 0 to 30 are the registers, 31 is the zero register, and no index above it is
read or written. -/
theorem registerPort : Obligations.RegisterPort := by
  refine fun s v => ⟨fun i hi => ?_, rfl, fun i hi => ?_, fun i j => Port.get_set s v, fun i hi => ?_,
    fun i hi => ?_⟩
  · rw [Port.get_of_lt s (by omega), State.reg_ofNat s hi]
  · have hget := Port.get_of_ge s hi
    exact ⟨hget, by simp [Port.apply, hget, Port.replyWord]⟩
  · rw [Port.set_of_lt s v (by omega)]
    exact State.setReg_eq s _ v
  · have hset := Port.set_of_ge s v hi
    exact ⟨hset, by simp [Port.apply, hset]⟩

/-- Settles O47: reset() is `construct` with the parameters the machine has, and `construct` gives each field
its value of R29. -/
theorem stateAfterReset : Obligations.StateAfterReset := by
  refine ⟨fun _ => rfl, fun cfg => ⟨fun i hi => ?_, rfl, rfl, rfl, rfl, rfl, fun a => ?_, rfl⟩⟩
  · rw [State.construct_x, Vector.getElem_replicate]
  · exact Memory.byte_nil a

end Sys2Proof.Machine
end

section
/-! SUPPORT and the statements of 20_memory. First the value of a range of bytes as a sum and what an admitted
and a rejected access of the host port answers; last the four statements. -/

namespace Sys2Proof.Machine

/-! ### The value of a range of bytes -/

/-- The little-endian value of n bytes is their weighted sum (20_memory R44). -/
theorem leValue_bytes (m : List Host.Cell) (a n : Nat) :
    leValue (Memory.bytes m a n) = ∑ i ∈ Finset.range n, (Memory.byte m (a + i)).toNat * 2 ^ (8 * i) := by
  induction n generalizing a with
  | zero => rfl
  | succ n ih =>
    have hshift (i : Nat) : 2 ^ 8 * ((Memory.byte m (a + 1 + i)).toNat * 2 ^ (8 * i)) =
        (Memory.byte m (a + (i + 1))).toNat * 2 ^ (8 * (i + 1)) := by
      rw [show a + 1 + i = a + (i + 1) by omega, show 8 * (i + 1) = 8 + 8 * i by omega, Nat.pow_add,
        Nat.mul_left_comm]
    rw [Memory.bytes, leValue, ih, Finset.mul_sum, Finset.sum_range_succ', Nat.add_comm]
    simp only [hshift, Nat.mul_zero, Nat.pow_zero, Nat.mul_one, Nat.add_zero]

/-! ### The reads of the port -/

/-- An admitted read (20_memory R48). -/
theorem Port.read_inside {s : State} {n : Nat} {a : Word} (h : a.toNat + n ≤ s.cfg.memSize) :
    Port.read s n a = .ok (∑ i ∈ Finset.range n, (s.byte (a.toNat + i)).toNat * 2 ^ (8 * i)) := by
  rw [Port.read_eq, if_pos h, leValue_bytes]
  rfl

/-- A rejected read (20_memory R47). -/
theorem Port.read_outside {s : State} {n : Nat} {a : Word} (h : s.cfg.memSize < a.toNat + n) :
    Port.read s n a = .error .outOfBounds := by
  rw [Port.read_eq, if_neg (by omega)]

/-- A read of one byte gives that byte. -/
theorem Port.read_byte {s : State} {a : Word} (h : a.toNat + 1 ≤ s.cfg.memSize) :
    Port.read s 1 a = .ok (s.byte a.toNat).toNat := by
  simp [Port.read_inside h]

/-- A read answers a value exactly where the access lies inside the memory (20_memory R47). -/
theorem Port.read_ok_iff (s : State) (n : Nat) (a : Word) :
    (∃ x, Port.read s n a = .ok x) ↔ a.toNat + n ≤ s.cfg.memSize := by
  rw [Port.read_eq]
  split <;> simp [*]

/-- read8, read32 and read64 are the reads of 1, 4 and 8 bytes (20_memory R46). -/
theorem Port.apply_read {p : Nat × Command} {a : Word} (s : State)
    (hp : p ∈ [(1, Command.read8 a), (4, Command.read32 a), (8, Command.read64 a)]) :
    Port.apply p.2 s = .next (Port.replyRead s (Port.read s p.1 a)) := by
  simp only [List.mem_cons, List.not_mem_nil, or_false] at hp
  obtain rfl | rfl | rfl := hp
  · rfl
  · rfl
  · rfl

/-! ### The writes of the port -/

/-- An admitted write (20_memory R49). -/
theorem Port.write_inside {s : State} {n : Nat} {a : Word} (v : Nat) (h : a.toNat + n ≤ s.cfg.memSize) :
    Port.write s n a v = .ok { s with mem := Memory.setBytes s.mem a.toNat (leBytes n v) } := by
  rw [Port.write_eq, if_pos h]

/-- A rejected write (20_memory R47). -/
theorem Port.write_outside {s : State} {n : Nat} {a : Word} (v : Nat) (h : s.cfg.memSize < a.toNat + n) :
    Port.write s n a v = .error .outOfBounds := by
  rw [Port.write_eq, if_neg (by omega)]

/-- A write succeeds exactly where the access lies inside the memory (20_memory R47). -/
theorem Port.write_ok_iff (s : State) (n : Nat) (a : Word) (v : Nat) :
    (∃ t, Port.write s n a v = .ok t) ↔ a.toNat + n ≤ s.cfg.memSize := by
  rw [Port.write_eq]
  split <;> simp [*]

/-- write8, write32 and write64 are the writes of 1, 4 and 8 bytes (20_memory R46). -/
theorem Port.apply_write {p : Nat × Command} {a : Word} {v : Nat} (s : State)
    (hp : p ∈ [(1, Command.write8 a v), (4, Command.write32 a v), (8, Command.write64 a v)]) :
    Port.apply p.2 s = .next (Port.attempt s (Port.write s p.1 a v)) := by
  simp only [List.mem_cons, List.not_mem_nil, or_false] at hp
  obtain rfl | rfl | rfl := hp
  · rfl
  · rfl
  · rfl

/-- The bytes of a value set in a canonical memory are the write of 20_memory R44. -/
theorem writesBytes_setBytes {s : State} (hwf : Memory.wf s.mem) (a : Word) (n v : Nat) :
    WritesBytes s { s with mem := Memory.setBytes s.mem a.toNat (leBytes n v) } a n v := by
  refine ⟨fun i hi => ?_, fun b hb => ?_, rfl⟩
  · have hbyte := Memory.byte_setBytes_inside hwf a.toNat (leBytes n v) i (by simpa using hi)
    simp [State.byte, hbyte, leBytes_getElem]
  · exact Memory.byte_setBytes_outside hwf a.toNat (leBytes n v) b (by simpa using hb)

/-- What an admitted write of a sound state answers (20_memory R49). -/
theorem Port.write_writesBytes {s : State} {n : Nat} {a : Word} (v : Nat) (hwf : Memory.wf s.mem)
    (h : a.toNat + n ≤ s.cfg.memSize) : ∃ t, Port.write s n a v = .ok t ∧ WritesBytes s t a n v :=
  ⟨_, Port.write_inside v h, writesBytes_setBytes hwf a n v⟩

/-! ### A read after a write -/

/-- A read of the range just written gives the low 8·n bits of the value (20_memory R45). -/
theorem Port.read_of_write {s t : State} {n : Nat} {a : Word} {v : Nat} (hwf : Memory.wf s.mem)
    (h : a.toNat + n ≤ s.cfg.memSize) (ht : Port.write s n a v = .ok t) :
    Port.read t n a = .ok (v % 2 ^ (8 * n)) := by
  rw [Port.write_inside v h] at ht
  cases ht
  have hbytes := Memory.bytes_setBytes hwf a.toNat (leBytes n v)
  rw [leBytes_length] at hbytes
  rw [Port.read_eq, if_pos h]
  simp only [hbytes, leValue_leBytes]

/-- Each byte of a written range reads as the byte little-endian order puts there (20_memory R45). -/
theorem Port.read_byte_of_writesBytes {s t : State} {n : Nat} {a : Word} {v i : Nat}
    (h : a.toNat + n ≤ s.cfg.memSize) (ht : WritesBytes s t a n v) (hi : i < n) :
    Port.read t 1 (a + BitVec.ofNat 64 i) = .ok (v / 2 ^ (8 * i) % 2 ^ 8) := by
  obtain ⟨hinside, -, hframe⟩ := ht
  have hcfg : t.cfg = s.cfg := by rw [hframe]
  have hsize := s.cfg.memSize_lt
  have haddr : (a + BitVec.ofNat 64 i).toNat = a.toNat + i := by
    rw [BitVec.toNat_add, BitVec.toNat_ofNat]
    omega
  rw [Port.read_byte (by rw [hcfg]; omega), haddr, hinside i hi]

/-! ### The statements -/

/-- Settles O28: the value of a range is the sum of its bytes, and each read command is the read of its
width. -/
theorem memoryRead : Obligations.MemoryRead := by
  refine fun s a => ⟨fun n => Port.read_inside, fun n => Port.read_outside, fun p hp => ⟨fun h => ?_, fun h => ?_⟩⟩
  · rw [Port.apply_read s hp, Port.read_inside h]; rfl
  · rw [Port.apply_read s hp, Port.read_outside h]; rfl

/-- Settles O29: on a canonical memory the bytes set are those of the range alone, and each write command is
the write of its width. -/
theorem memoryWrite : Obligations.MemoryWrite := by
  rintro s a v ⟨hwf, -⟩
  refine ⟨fun n => ⟨Port.write_writesBytes v hwf, fun h => ?_⟩, fun p hp => ⟨fun h => ?_, fun h => ?_⟩⟩
  · rw [Port.write_outside v h]; exact ⟨rfl, rfl⟩
  · obtain ⟨t, hwrite, hbytes⟩ := Port.write_writesBytes v hwf h
    exact ⟨t, by rw [Port.apply_write s hp, hwrite]; rfl, hbytes⟩
  · rw [Port.apply_write s hp, Port.write_outside v h]; rfl

/-- Settles O30: both accesses have the one bound, and the memory ends below 2^64. -/
theorem boundsCheck : Obligations.BoundsCheck := by
  refine fun s => ⟨fun a n v => ⟨Port.read_ok_iff s n a, Port.write_ok_iff s n a v, fun h => ?_, fun h => ?_⟩,
    fun a n v ha hn => ?_, fun a v ha => ?_⟩
  · have houtside : s.cfg.memSize < a.toNat + n := Nat.lt_of_not_le h
    exact ⟨Port.read_outside houtside, Port.write_outside v houtside⟩
  · exact Port.read_outside (Nat.lt_of_lt_of_le s.cfg.memSize_lt h)
  · have houtside : s.cfg.memSize < a.toNat + n := by omega
    exact ⟨Port.read_outside houtside, Port.write_outside v houtside⟩
  · exact ⟨(Port.read_ok_iff s 1 a).mpr ha.le, (Port.write_ok_iff s 1 a v).mpr ha.le⟩

/-- Settles O31: the write leaves the value's bytes in its range, and the value is below 2^(8·n). -/
theorem writeThenRead : Obligations.WriteThenRead := by
  rintro s a n v ⟨hwf, -⟩ - hbound hv
  obtain ⟨t, hwrite, hbytes⟩ := Port.write_writesBytes v hwf hbound
  refine ⟨t, hwrite, ?_, fun i => Port.read_byte_of_writesBytes hbound hbytes⟩
  rw [Port.read_of_write hwf hbound hwrite, Nat.mod_eq_of_lt hv]

end Sys2Proof.Machine
end

section
/-! SUPPORT and the statements of 30_encoding. First what a mask says of a word and what each row of the opcode
map fixes; then which row a word is decoded in and which words the decoder rejects; last the two statements. -/

namespace Sys2Proof

/-! ### Masks and fields -/

/-- A mask made of whole fields selects the words that agree with the match on each of the fields. -/
theorem and_mask_eq_iff {fields : List (Nat × Nat)} {w m v : InstrWord}
    (hmask : ∀ i < 32, m.getLsbD i = fields.any fun f => decide (f.1 ≤ i ∧ i < f.1 + f.2)) (hfixed : v &&& m = v) :
    w &&& m = v ↔ ∀ f ∈ fields, w.extractLsb' f.1 f.2 = v.extractLsb' f.1 f.2 := by
  constructor
  · rintro rfl f hf
    refine BitVec.eq_of_getLsbD_eq fun k hk => ?_
    simp only [BitVec.getLsbD_extractLsb', BitVec.getLsbD_and, hk, decide_true, Bool.true_and]
    by_cases hbit : f.1 + k < 32
    · have hin : m.getLsbD (f.1 + k) = true := by
        rw [hmask _ hbit, List.any_eq_true]
        exact ⟨f, hf, by simpa using hk⟩
      rw [hin, Bool.and_true]
    · rw [BitVec.getLsbD_of_ge w _ (by omega), Bool.false_and]
  · intro h
    rw [← hfixed]
    refine BitVec.eq_of_getLsbD_eq fun i hi => ?_
    rw [BitVec.getLsbD_and, BitVec.getLsbD_and]
    cases hin : m.getLsbD i with
    | false => simp only [Bool.and_false]
    | true =>
      rw [hmask i hi, List.any_eq_true] at hin
      obtain ⟨f, hf, hrange⟩ := hin
      obtain ⟨hstart, hend⟩ := of_decide_eq_true hrange
      have hbit := congrArg (·.getLsbD (i - f.1)) (h f hf)
      have hlen : i - f.1 < f.2 := by omega
      simp only [BitVec.getLsbD_extractLsb', hlen, Nat.add_sub_cancel' hstart] at hbit
      simpa using hbit

/-! ### The rows of the opcode map (30_encoding R89), read off the formats R75 to R80 -/

/-- The class code of the instruction's row (30_encoding R71). -/
def Instr.rowClass : Instr → BitVec 3
  | .and .. | .eor .. | .sub .. | .add .. | .orr .. => 0b010#3
  | .addi .. | .subi .. | .andi .. | .orri .. | .eori .. => 0b100#3
  | .sturOffset .. | .sturPreIndex .. | .sturPostIndex .. => 0b110#3
  | .ldurOffset .. | .ldurPreIndex .. | .ldurPostIndex .. => 0b110#3
  | .b .. | .bl .. | .br .. | .blr .. | .ret .. | .cbz .. | .cbnz .. => 0b101#3

/-- The selector of the instruction's row (30_encoding R72). -/
def Instr.rowSelector : Instr → BitVec 3
  | .and .. | .addi .. | .sturOffset .. | .b .. => 0#3
  | .eor .. | .subi .. | .sturPreIndex .. | .bl .. => 1#3
  | .sub .. | .andi .. | .sturPostIndex .. | .br .. => 2#3
  | .add .. | .orri .. | .blr .. => 3#3
  | .orr .. | .eori .. | .ldurOffset .. | .ret .. => 4#3
  | .ldurPreIndex .. | .cbz .. => 5#3
  | .ldurPostIndex .. | .cbnz .. => 6#3

/-- The reserved fields of the instruction's row, each as its lowest bit and its width (30_encoding R73). -/
def Instr.reservedFields : Instr → List (Nat × Nat)
  | .and .. | .eor .. | .sub .. | .add .. | .orr .. => [(24, 2), (21, 1), (10, 6)]
  | .addi .. | .subi .. | .andi .. | .orri .. | .eori .. => [(22, 4)]
  | .sturOffset .. | .sturPreIndex .. | .sturPostIndex .. => []
  | .ldurOffset .. | .ldurPreIndex .. | .ldurPostIndex .. => []
  | .b .. | .bl .. => []
  | .br .. | .blr .. | .ret .. => [(10, 16), (0, 5)]
  | .cbz .. | .cbnz .. => [(24, 2)]

theorem rowMask_getLsbD (j : Instr) :
    ∀ i < 32, j.rowMask.getLsbD i =
      ((29, 3) :: (26, 3) :: j.reservedFields).any fun f => decide (f.1 ≤ i ∧ i < f.1 + f.2) := by
  cases j <;> simp only [Instr.rowMask, Instr.reservedFields] <;> decide

theorem rowMatch_fields (j : Instr) :
    j.rowMatch.extractLsb' 29 3 = j.rowSelector ∧ j.rowMatch.extractLsb' 26 3 = j.rowClass ∧
      ∀ f ∈ j.reservedFields, j.rowMatch.extractLsb' f.1 f.2 = 0 := by
  cases j <;> simp only [Instr.rowMatch, Instr.rowSelector, Instr.rowClass, Instr.reservedFields] <;> decide

theorem rowMatch_and_rowMask (j : Instr) : j.rowMatch &&& j.rowMask = j.rowMatch := by
  refine BitVec.eq_of_toNat_eq ?_
  rw [BitVec.toNat_and]
  cases j <;> simp [Instr.rowMatch, Instr.rowMask]

/-- A word has the fixed bits of a row exactly when it has the row's selector and class, and the row's
reserved fields are 0. -/
theorem and_rowMask_eq_iff (j : Instr) (w : InstrWord) :
    w &&& j.rowMask = j.rowMatch ↔
      selectorOf w = j.rowSelector ∧ classOf w = j.rowClass ∧
        ∀ f ∈ j.reservedFields, w.extractLsb' f.1 f.2 = 0 := by
  obtain ⟨hsel, hclass, hzero⟩ := rowMatch_fields j
  rw [and_mask_eq_iff (rowMask_getLsbD j) (rowMatch_and_rowMask j), List.forall_mem_cons, List.forall_mem_cons,
    hsel, hclass]
  refine and_congr_right' (and_congr_right' (forall₂_congr fun f hf => ?_))
  rw [hzero f hf]

/-- The word is in the instruction's row, and the row exists: EORI's under DECODE_EORI only (30_encoding R93). -/
def Instr.Selects (e : Bool) (w : InstrWord) (j : Instr) : Prop :=
  w &&& j.rowMask = j.rowMatch ∧ (j.opcode = .eori → e = true)

/-- Two instructions of one row of the opcode map. -/
def Instr.SameRow (i j : Instr) : Prop :=
  i.rowMatch = j.rowMatch ∧ i.rowMask = j.rowMask ∧ i.opcode = j.opcode

/-! ### The decoder, class by class (30_encoding R71) -/

theorem decode_register (e : Bool) {w : InstrWord} (h : classOf w = 0b010#3) : decode e w = decodeRegister w := by
  simp [decode, h]

theorem decode_immediate (e : Bool) {w : InstrWord} (h : classOf w = 0b100#3) :
    decode e w = decodeImmediate e w := by
  simp [decode, h]

theorem decode_loadStore (e : Bool) {w : InstrWord} (h : classOf w = 0b110#3) :
    decode e w = decodeLoadStore w := by
  simp [decode, h]

theorem decode_branch (e : Bool) {w : InstrWord} (h : classOf w = 0b101#3) : decode e w = decodeBranch w := by
  simp [decode, h]

/-! ### A decoded word is in the row of its instruction -/

theorem selects_of_decodeRegister (e : Bool) {w : InstrWord} {i : Instr} (hclass : classOf w = 0b010#3)
    (h : decodeRegister w = .ok i) : i.Selects e w := by
  rw [Instr.Selects, and_rowMask_eq_iff]
  unfold decodeRegister at h
  split_ifs at h with hreserved hsel hsel hsel hsel hsel <;> cases h
  all_goals
    have hzero : ∀ f ∈ [(24, 2), (21, 1), (10, 6)], w.extractLsb' f.1 f.2 = 0 := by simpa using hreserved
    exact ⟨⟨hsel, hclass, hzero⟩, nofun⟩

theorem selects_of_decodeImmediate {e : Bool} {w : InstrWord} {i : Instr} (hclass : classOf w = 0b100#3)
    (h : decodeImmediate e w = .ok i) : i.Selects e w := by
  rw [Instr.Selects, and_rowMask_eq_iff]
  unfold decodeImmediate at h
  split_ifs at h with hreserved haddi hsubi handi horri heori <;> cases h
  all_goals have hzero : ∀ f ∈ [(22, 4)], w.extractLsb' f.1 f.2 = 0 := by simpa using hreserved
  · exact ⟨⟨haddi, hclass, hzero⟩, nofun⟩
  · exact ⟨⟨hsubi, hclass, hzero⟩, nofun⟩
  · exact ⟨⟨handi, hclass, hzero⟩, nofun⟩
  · exact ⟨⟨horri, hclass, hzero⟩, nofun⟩
  · obtain ⟨hsel, he⟩ := heori
    exact ⟨⟨hsel, hclass, hzero⟩, fun _ => he⟩

theorem selects_of_decodeLoadStore (e : Bool) {w : InstrWord} {i : Instr} (hclass : classOf w = 0b110#3)
    (h : decodeLoadStore w = .ok i) : i.Selects e w := by
  rw [Instr.Selects, and_rowMask_eq_iff]
  unfold decodeLoadStore at h
  split_ifs at h with hsel hsel hsel hsel hsel hsel <;> cases h
  all_goals exact ⟨⟨hsel, hclass, nofun⟩, nofun⟩

theorem selects_of_decodeBranch (e : Bool) {w : InstrWord} {i : Instr} (hclass : classOf w = 0b101#3)
    (h : decodeBranch w = .ok i) : i.Selects e w := by
  rw [Instr.Selects, and_rowMask_eq_iff]
  unfold decodeBranch at h
  split_ifs at h with hb hbl hfixed hfixed hfixed hfixed hfixed <;> cases h
  · exact ⟨⟨hb, hclass, nofun⟩, nofun⟩
  · exact ⟨⟨hbl, hclass, nofun⟩, nofun⟩
  all_goals
    obtain ⟨hsel, hreserved⟩ := hfixed
    exact ⟨⟨hsel, hclass, by simpa [Instr.reservedFields] using hreserved⟩, nofun⟩

theorem selects_of_decode {e : Bool} {w : InstrWord} {i : Instr} (h : decode e w = .ok i) : i.Selects e w := by
  unfold decode at h
  split_ifs at h with hr hi hd hb
  · exact selects_of_decodeRegister e hr h
  · exact selects_of_decodeImmediate hi h
  · exact selects_of_decodeLoadStore e hd h
  · exact selects_of_decodeBranch e hb h

/-! ### A word in a row is decoded in that row -/

theorem decode_of_selects {e : Bool} {w : InstrWord} {j : Instr} (h : j.Selects e w) :
    ∃ i, decode e w = .ok i ∧ i.SameRow j := by
  obtain ⟨hrow, heori⟩ := h
  obtain ⟨hsel, hclass, hzero⟩ := (and_rowMask_eq_iff j w).mp hrow
  cases j with
  | and | eor | sub | add | orr =>
    have hreserved : ¬ (w.extractLsb' 24 2 ≠ 0#2 ∨ w.extractLsb' 21 1 ≠ 0#1 ∨ w.extractLsb' 10 6 ≠ 0#6) := by
      simpa [Instr.reservedFields] using hzero
    rw [decode_register e hclass, decodeRegister, if_neg hreserved, hsel]
    exact ⟨_, rfl, rfl, rfl, rfl⟩
  | addi | subi | andi | orri =>
    have hreserved : ¬ w.extractLsb' 22 4 ≠ 0#4 := by simpa [Instr.reservedFields] using hzero
    rw [decode_immediate e hclass, decodeImmediate, if_neg hreserved, hsel]
    exact ⟨_, rfl, rfl, rfl, rfl⟩
  | eori =>
    have hreserved : ¬ w.extractLsb' 22 4 ≠ 0#4 := by simpa [Instr.reservedFields] using hzero
    rw [decode_immediate e hclass, decodeImmediate, if_neg hreserved, hsel, heori rfl]
    exact ⟨_, rfl, rfl, rfl, rfl⟩
  | sturOffset | sturPreIndex | sturPostIndex | ldurOffset | ldurPreIndex | ldurPostIndex =>
    rw [decode_loadStore e hclass, decodeLoadStore, hsel]
    exact ⟨_, rfl, rfl, rfl, rfl⟩
  | b | bl =>
    rw [decode_branch e hclass, decodeBranch, hsel]
    exact ⟨_, rfl, rfl, rfl, rfl⟩
  | br | blr | ret =>
    obtain ⟨h10, h0⟩ : w.extractLsb' 10 16 = 0#16 ∧ w.extractLsb' 0 5 = 0#5 := by
      simpa [Instr.reservedFields] using hzero
    rw [decode_branch e hclass, decodeBranch, hsel, h10, h0]
    exact ⟨_, rfl, rfl, rfl, rfl⟩
  | cbz | cbnz =>
    have h24 : w.extractLsb' 24 2 = 0#2 := by simpa [Instr.reservedFields] using hzero
    rw [decode_branch e hclass, decodeBranch, hsel, h24]
    exact ⟨_, rfl, rfl, rfl, rfl⟩

/-- The match word of a row is itself decoded in that row, so it determines the row's mask and opcode. -/
theorem sameRow_of_rowMatch_eq {i j : Instr} (h : i.rowMatch = j.rowMatch) : i.SameRow j := by
  obtain ⟨k, hk, hmatch, hmask, hop⟩ := decode_of_selects (e := true) ⟨rowMatch_and_rowMask i, fun _ => rfl⟩
  obtain ⟨l, hl, hmatch', hmask', hop'⟩ := decode_of_selects (e := true) ⟨rowMatch_and_rowMask j, fun _ => rfl⟩
  rw [h, hl] at hk
  cases hk
  exact ⟨h, hmask.symm.trans hmask', hop.symm.trans hop'⟩

/-- The words decoded in a row are the words the row selects. -/
theorem decode_in_row_iff {e : Bool} {w : InstrWord} {j : Instr} :
    (∃ i, decode e w = .ok i ∧ i.rowMatch = j.rowMatch) ↔ j.Selects e w := by
  constructor
  · rintro ⟨i, hi, hmatch⟩
    obtain ⟨-, hmask, hop⟩ := sameRow_of_rowMatch_eq hmatch
    have hselects := selects_of_decode hi
    rwa [Instr.Selects, hmask, hmatch, hop] at hselects
  · intro h
    obtain ⟨i, hi, hmatch, -⟩ := decode_of_selects h
    exact ⟨i, hi, hmatch⟩

/-- No word is in two rows: with DECODE_EORI it is decoded in each row it is in, and decoded once. -/
theorem rowMatch_eq_of_word {w : InstrWord} {i j : Instr} (hi : w &&& i.rowMask = i.rowMatch)
    (hj : w &&& j.rowMask = j.rowMatch) : i.rowMatch = j.rowMatch := by
  obtain ⟨k, hk, hki, -⟩ := decode_of_selects (e := true) ⟨hi, fun _ => rfl⟩
  obtain ⟨l, hl, hlj, -⟩ := decode_of_selects (e := true) ⟨hj, fun _ => rfl⟩
  rw [hl] at hk
  cases hk
  exact hki.symm.trans hlj

/-! ### The words the decoder rejects (30_encoding R90) -/

/-- The decoder gives no instruction. -/
def Rejected (d : Except Undecoded Instr) : Prop := ∀ i, d ≠ .ok i

@[simp] theorem rejected_error (u : Undecoded) : Rejected (.error u) := nofun

@[simp] theorem not_rejected_ok (i : Instr) : ¬ Rejected (.ok i) := fun h => h i rfl

@[simp] theorem rejected_ite {p : Prop} [Decidable p] (d d' : Except Undecoded Instr) :
    Rejected (if p then d else d') ↔ if p then Rejected d else Rejected d' := by
  split <;> rfl

theorem toRecord_opcode_ne_invalid (i : Instr) : i.toRecord.opcode ≠ .invalid := by
  cases i <;> nofun

/-- The record of a word is INVALID exactly when the word is rejected. -/
theorem decodeRecord_invalid_iff {e : Bool} {w : InstrWord} :
    (decodeRecord e w).opcode = .invalid ↔ Rejected (decode e w) := by
  unfold decodeRecord
  cases decode e w with
  | ok i => simp [toRecord_opcode_ne_invalid]
  | error u => simp [Record.ofInvalid]

/-- The values of a class field or a selector. -/
theorem threeBits_cases (x : BitVec 3) :
    x = 0b000#3 ∨ x = 0b001#3 ∨ x = 0b010#3 ∨ x = 0b011#3 ∨
      x = 0b100#3 ∨ x = 0b101#3 ∨ x = 0b110#3 ∨ x = 0b111#3 := by
  revert x; decide

/-- The load/store mode is the low part of the selector (30_encoding R77). -/
theorem mode_eq (w : InstrWord) : w.extractLsb' 29 2 = (selectorOf w).extractLsb' 0 2 := by
  rw [selectorOf, ← Laws.fields_join w 29 2 1, Laws.field_below _ _ _ _ (by decide), BitVec.extractLsb'_eq_self]

theorem rejected_decodeRegister_iff (w : InstrWord) :
    Rejected (decodeRegister w) ↔
      selectorOf w ∈ [0b101#3, 0b110#3, 0b111#3] ∨ w.extractLsb' 24 2 ≠ 0#2 ∨
        w.extractLsb' 21 1 ≠ 0#1 ∨ w.extractLsb' 10 6 ≠ 0#6 := by
  unfold decodeRegister
  rcases threeBits_cases (selectorOf w) with h | h | h | h | h | h | h | h <;> simp [h]

theorem rejected_decodeImmediate_iff (e : Bool) (w : InstrWord) :
    Rejected (decodeImmediate e w) ↔
      selectorOf w ∈ [0b101#3, 0b110#3, 0b111#3] ∨ w.extractLsb' 22 4 ≠ 0#4 ∨
        (selectorOf w = 0b100#3 ∧ e = false) := by
  unfold decodeImmediate
  rcases threeBits_cases (selectorOf w) with h | h | h | h | h | h | h | h <;> simp [h, imp_iff_not_or]

theorem rejected_decodeLoadStore_iff (w : InstrWord) :
    Rejected (decodeLoadStore w) ↔ w.extractLsb' 29 2 = 0b11#2 := by
  rw [mode_eq]
  unfold decodeLoadStore
  rcases threeBits_cases (selectorOf w) with h | h | h | h | h | h | h | h <;> simp [h]

theorem rejected_decodeBranch_iff (w : InstrWord) :
    Rejected (decodeBranch w) ↔
      selectorOf w = 0b111#3 ∨
        (selectorOf w ∈ [0b010#3, 0b011#3, 0b100#3] ∧ (w.extractLsb' 10 16 ≠ 0#16 ∨ w.extractLsb' 0 5 ≠ 0#5)) ∨
        (selectorOf w ∈ [0b101#3, 0b110#3] ∧ w.extractLsb' 24 2 ≠ 0#2) := by
  unfold decodeBranch
  rcases threeBits_cases (selectorOf w) with h | h | h | h | h | h | h | h <;> simp [h, imp_iff_not_or]

theorem rejected_decode_iff (e : Bool) (w : InstrWord) :
    Rejected (decode e w) ↔
      classOf w ∈ [0b000#3, 0b001#3, 0b011#3, 0b111#3] ∨
      (classOf w = 0b010#3 ∧ Rejected (decodeRegister w)) ∨
      (classOf w = 0b100#3 ∧ Rejected (decodeImmediate e w)) ∨
      (classOf w = 0b110#3 ∧ Rejected (decodeLoadStore w)) ∨
      (classOf w = 0b101#3 ∧ Rejected (decodeBranch w)) := by
  unfold decode
  rcases threeBits_cases (classOf w) with h | h | h | h | h | h | h | h <;> simp [h]

/-- A step that fetches a rejected word takes the fault InvalidInstruction (40_execution_cycle R105). -/
theorem step_of_rejected {s : Machine.State} {w : InstrWord} (hrunning : s.running = true)
    (hpc : s.pc ∉ s.breakpoints) (hfetch : s.fetch = some w) (h : Rejected (decode s.cfg.decodeEori w)) :
    Machine.step s = .next (s.raise (.invalidInstruction s.pc)) := by
  obtain ⟨hr, -⟩ | ⟨-, hb, -⟩ | ⟨-, -, hf, -⟩ | ⟨-, -, -, -, -, -, ho⟩ | ⟨w', i, -, -, hf, hi, -⟩ :=
    Machine.step_cases (s := s) rfl
  · rw [hrunning] at hr
    cases hr
  · exact absurd hb hpc
  · rw [hfetch] at hf
    cases hf
  · exact ho
  · rw [hfetch] at hf
    cases hf
    exact absurd hi (h i)

/-! ### The statements -/

/-- Settles O5: the clauses (a) to (e) are what each class's decoder rejects, and INVALID is being rejected. -/
theorem invalidSpace : Obligations.InvalidSpace := by
  refine ⟨fun e w => ?_, fun s w hrunning hpc hfetch hinvalid =>
    step_of_rejected hrunning hpc hfetch (decodeRecord_invalid_iff.mp hinvalid)⟩
  have hclauses := rejected_decode_iff e w
  rw [rejected_decodeRegister_iff, rejected_decodeImmediate_iff, rejected_decodeLoadStore_iff,
    rejected_decodeBranch_iff] at hclauses
  exact decodeRecord_invalid_iff.trans hclauses

/-- Settles O6: a word is decoded in a row exactly when the row selects it; exclusion and the INVALID rest
follow because a word is decoded once, and in a row that has its fixed bits. -/
theorem opcodeMap : Obligations.OpcodeMap := by
  refine ⟨fun _ _ _ => decode_in_row_iff, fun _ _ _ => rowMatch_eq_of_word, fun e w hrow => ?_⟩
  refine decodeRecord_invalid_iff.mpr fun i hi => ?_
  obtain ⟨hbits, -⟩ := selects_of_decode hi
  exact hrow i hbits

end Sys2Proof
end

section
/-! SUPPORT and the statements of 40_execution_cycle. First what the gate answers where the condition fails, what
the step answers at each stage that ends it early, and the word a fetch reads; last the six statements. -/

namespace Sys2Proof.Machine

/-! ### The gate (40_execution_cycle R106) -/

/-- An instruction whose condition fails retires at the next instruction, whatever its opcode. -/
theorem exec_of_not_holds {i : Instr} {s : State} (h : i.cond.holds s.flags = false) :
    exec i s = .next (s.retire s.nextPc) := by
  rw [exec_eq, h]
  rfl

/-! ### The stages that end a step early; `step_of_halted` is stage 0 -/

/-- Stage 1 precedes the fetch: no hypothesis speaks of the memory (40_execution_cycle R102). -/
theorem step_of_breakpoint {s : State} (hrunning : s.running = true) (hpc : s.pc ∈ s.breakpoints) :
    step s = .next (s.report .breakpointHit) := by
  simp [step, hrunning, hpc]

/-- Stage 2, rejected: the access address is the pc itself (40_execution_cycle R103). -/
theorem step_of_fetch_none {s : State} (hrunning : s.running = true) (hpc : s.pc ∉ s.breakpoints)
    (hfetch : s.fetch = none) : step s = .next (s.raise (.outOfBounds s.pc s.pc 4)) := by
  simp [step, hrunning, hpc, hfetch]

/-- Among the outcomes of a step only the taken fault reports halted-on-fault (40_execution_cycle R100). -/
theorem eq_raise_of_step_haltedOnFault {s t : State} {f : Fault} (h : step s = .next t)
    (hresult : t.result = some (.haltedOnFault f)) : t = s.raise f := by
  obtain ⟨-, rfl⟩ | ⟨-, -, rfl⟩ | ⟨-, -, g, rfl⟩ | ⟨-, -, target, -, hcontinued, -⟩ := step_outcomes h
  · simp at hresult
  · simp at hresult
  · cases hresult
    rfl
  · simp [hcontinued] at hresult

/-! ### The fetched word (20_memory R43, R44) -/

/-- Adding a least significant byte to a number appends it below the number's bits. -/
theorem ofNat_byte_add (n x : Nat) (v : Byte) :
    BitVec.ofNat (n + 8) (v.toNat + 2 ^ 8 * x) = BitVec.ofNat n x ++ v := by
  have hlow : (v.toNat + 2 ^ 8 * x) % 2 ^ 8 = v.toNat := by omega
  have hhigh : (v.toNat + 2 ^ 8 * x) / 2 ^ 8 = x := by omega
  apply BitVec.eq_of_toNat_eq
  calc (BitVec.ofNat (n + 8) (v.toNat + 2 ^ 8 * x)).toNat
      = (v.toNat + 2 ^ 8 * x) % (2 ^ 8 * 2 ^ n) := by rw [BitVec.toNat_ofNat, Nat.pow_add, Nat.mul_comm (2 ^ n)]
    _ = v.toNat + 2 ^ 8 * (x % 2 ^ n) := by rw [Nat.mod_mul, hlow, hhigh]
    _ = (BitVec.ofNat n x ++ v).toNat := by
      rw [BitVec.toNat_append, ← Nat.shiftLeft_add_eq_or_of_lt v.isLt, Nat.shiftLeft_eq, BitVec.toNat_ofNat,
        Nat.mul_comm, Nat.add_comm]

/-- The little-endian value of four bytes is the instruction word made of them. -/
theorem ofNat_leValue_four (b0 b1 b2 b3 : Byte) :
    BitVec.ofNat 32 (leValue [b0, b1, b2, b3]) = wordOfBytes b0 b1 b2 b3 := by
  have hlast : BitVec.ofNat 8 (leValue [b3]) = b3 := by simp [leValue]
  calc BitVec.ofNat 32 (leValue [b0, b1, b2, b3])
      = BitVec.ofNat 24 (leValue [b1, b2, b3]) ++ b0 := ofNat_byte_add 24 _ b0
    _ = BitVec.ofNat 16 (leValue [b2, b3]) ++ b1 ++ b0 := congrArg (· ++ b0) (ofNat_byte_add 16 _ b1)
    _ = BitVec.ofNat 8 (leValue [b3]) ++ b2 ++ b1 ++ b0 := congrArg (· ++ b1 ++ b0) (ofNat_byte_add 8 _ b2)
    _ = wordOfBytes b0 b1 b2 b3 := by rw [hlast]; rfl

/-- The word fetched at any pc, aligned or not (40_execution_cycle R103). -/
theorem State.fetch_inside {s : State} (h : s.pc.toNat + 4 ≤ s.cfg.memSize) :
    s.fetch = some (wordOfBytes (s.byte s.pc.toNat) (s.byte (s.pc.toNat + 1)) (s.byte (s.pc.toNat + 2))
      (s.byte (s.pc.toNat + 3))) :=
  State.fetch_eq_some.mpr ⟨h, (ofNat_leValue_four ..).symm⟩

/-! ### The statements -/

/-- Settles O39: the state a fault leaves is `State.raise` of the old one. -/
theorem faultChangesOnlyRunning : Obligations.FaultChangesOnlyRunning :=
  fun _ _ _ => eq_raise_of_step_haltedOnFault

/-- Settles O8: row by row, the evaluator's Boolean operators read as the connectives of the table. -/
theorem conditionTable : Obligations.ConditionTable := by
  intro n z c v
  have hnot (b : Bool) : (!b) = true ↔ ¬b = true := by simp
  refine ⟨Iff.rfl, hnot z, Iff.rfl, hnot c, Iff.rfl, hnot n, Iff.rfl, hnot v, ?hi, ?ls, beq_iff_eq, bne_iff_ne,
    ?gt, ?le, rfl, rfl⟩
  case hi => exact Bool.and_eq_true_iff.trans (and_congr_right' (hnot z))
  case ls => exact Bool.or_eq_true_iff.trans (or_congr_left (hnot c))
  case gt => exact Bool.and_eq_true_iff.trans (and_congr beq_iff_eq (hnot z))
  case le => exact Bool.or_eq_true_iff.trans (or_congr_left bne_iff_ne)

/-- Settles O11: the gate stands before every instruction's own effect. -/
theorem falseConditionSkips : Obligations.FalseConditionSkips :=
  ⟨fun _ _ => exec_of_not_holds, fun _ => rfl⟩

/-- Settles O34. -/
theorem stepWhenHalted : Obligations.StepWhenHalted :=
  fun _ => step_of_halted

/-- Settles O35. -/
theorem stepAtBreakpoint : Obligations.StepAtBreakpoint :=
  fun _ => step_of_breakpoint

/-- Settles O36: the bound of the admitted fetch and that of the fetch fault are complementary. -/
theorem stepFetch : Obligations.StepFetch :=
  fun _ => ⟨State.fetch_inside, fun hrunning hpc houtside =>
    step_of_fetch_none hrunning hpc (State.fetch_eq_none.mpr houtside)⟩

end Sys2Proof.Machine
end

section
/-! SUPPORT and the statements of 41_dp_register. First the words of the register class; then the result of the
adder; then what an instruction that completes leaves, as the effect its rule states; last the two statements. -/

namespace Sys2Proof.Machine

/-! ### The words of the register class (30_encoding R75, R89) -/

/-- Every word with the fixed bits of a row of the register class decodes to the row's instruction, with the
operands of the word's fields. -/
theorem encodedBy_registerRow (e : Bool) {mk : Cond → Reg → Reg → Reg → BitVec 6 → Instr}
    (hmk : mk ∈ [Instr.and, Instr.eor, Instr.sub, Instr.add, Instr.orr]) :
    EncodedBy e (mk .al 0 0 0 0).rowMask (mk .al 0 0 0 0).rowMatch
      (fun w => mk .al (rdOf w) (rnOf w) (rmOf w) (shiftOf w)) := by
  intro w hrow
  obtain ⟨hsel, hclass, hzero⟩ := (and_rowMask_eq_iff _ w).mp hrow
  simp only [List.mem_cons, List.not_mem_nil, or_false] at hmk
  obtain rfl | rfl | rfl | rfl | rfl := hmk
  all_goals
    have hreserved : ¬ (w.extractLsb' 24 2 ≠ 0#2 ∨ w.extractLsb' 21 1 ≠ 0#1 ∨ w.extractLsb' 10 6 ≠ 0#6) := by
      simpa [Instr.reservedFields] using hzero
    rw [decode_register e hclass, decodeRegister, if_neg hreserved, hsel]
    rfl

/-! ### The result of the adder (41_dp_register R130) -/

/-- The adder's result is the sum modulo 2^64. -/
theorem addWithCarry_result (a b : Word) (cin : Bool) :
    (addWithCarry a b cin).1 = a + b + BitVec.ofNat 64 cin.toNat := by
  simp [addWithCarry, BitVec.ofNat_add]

theorem addFlags_result (a b : Word) : (addFlags a b).1 = a + b :=
  (addWithCarry_result a b false).trans (BitVec.add_zero _)

/-- Adding NOT b and 1 subtracts b. -/
theorem subFlags_result (a b : Word) : (subFlags a b).1 = a - b :=
  calc (subFlags a b).1 = a + ~~~b + 1#64 := addWithCarry_result a (~~~b) true
    _ = a + -b := by rw [BitVec.add_assoc, BitVec.neg_eq_not_add]
    _ = a - b := (BitVec.sub_eq_add_neg a b).symm

/-! ### An instruction that completes: result and frame -/

/-- An instruction whose condition holds completes with its own effect; `exec_of_not_holds` is the other case
(40_execution_cycle R106). -/
theorem exec_of_holds {i : Instr} {s : State} (h : i.cond.holds s.flags = true) : exec i s = .next (body i s) := by
  rw [exec_eq, if_pos h]

/-- A result register written before the pc and the outcome is the one register write of the instruction. -/
theorem State.finishLogical_effect (s : State) (rd : Reg) (v : Word) :
    s.LogicalEffect (s.finishLogical rd v) rd v :=
  ⟨reg_setReg s rd v, setReg_flags s rd v, byte_setReg s rd v, finishLogical_retiredAt s rd v⟩

/-- All four flags are the adder's, whatever rd is: with rd = 31 the register write alone is discarded
(41_dp_register R134, R135). -/
theorem State.finishArith_effect (s : State) (rd : Reg) (r : Word × Flags) :
    s.ArithEffect (s.finishArith rd r) rd r.1 r.2 :=
  ⟨reg_setReg s rd r.1, rfl, byte_setReg s rd r.1, finishArith_retiredAt s rd r⟩

theorem State.finishArith_addFlags_effect (s : State) (rd : Reg) (a b : Word) :
    s.ArithEffect (s.finishArith rd (addFlags a b)) rd (a + b) (addWithCarry a b false).2 :=
  addFlags_result a b ▸ finishArith_effect s rd (addFlags a b)

theorem State.finishArith_subFlags_effect (s : State) (rd : Reg) (a b : Word) :
    s.ArithEffect (s.finishArith rd (subFlags a b)) rd (a - b) (addWithCarry a (~~~b) true).2 :=
  subFlags_result a b ▸ finishArith_effect s rd (subFlags a b)

/-! ### The statements -/

/-- Settles O12: three rows of the register class, each the logical effect of its own bitwise result. -/
theorem logicalRegister : Obligations.LogicalRegister := by
  refine ⟨fun e => ⟨?_, ?_, ?_⟩, fun c rd rn rm sh s hc => ⟨?and, ?eor, ?orr⟩⟩
  · exact encodedBy_registerRow e (mk := .and) (by simp)
  · exact encodedBy_registerRow e (mk := .eor) (by simp)
  · exact encodedBy_registerRow e (mk := .orr) (by simp)
  case and => exact ⟨_, exec_of_holds (i := .and c rd rn rm sh) hc, s.finishLogical_effect rd _⟩
  case eor => exact ⟨_, exec_of_holds (i := .eor c rd rn rm sh) hc, s.finishLogical_effect rd _⟩
  case orr => exact ⟨_, exec_of_holds (i := .orr c rd rn rm sh) hc, s.finishLogical_effect rd _⟩

/-- Settles O13: two rows of the register class, each the arithmetic effect of the adder's result and flags. -/
theorem arithmeticRegister : Obligations.ArithmeticRegister := by
  refine ⟨fun e => ⟨?_, ?_⟩, fun c rd rn rm sh s hc => ⟨?sub, ?add⟩⟩
  · exact encodedBy_registerRow e (mk := .sub) (by simp)
  · exact encodedBy_registerRow e (mk := .add) (by simp)
  case sub => exact ⟨_, exec_of_holds (i := .sub c rd rn rm sh) hc, s.finishArith_subFlags_effect rd _ _⟩
  case add => exact ⟨_, exec_of_holds (i := .add c rd rn rm sh) hc, s.finishArith_addFlags_effect rd _ _⟩

end Sys2Proof.Machine
end

section
/-! SUPPORT and the statements of 42_dp_immediate. First the words of the immediate class, EORI's with and without
DECODE_EORI; last the three statements. -/

namespace Sys2Proof.Machine

/-! ### The words of the immediate class (30_encoding R76, R89, R93) -/

/-- Every word with the fixed bits of a row of the immediate class decodes to the row's instruction, with the
operands of the word's fields; EORI's row is there under DECODE_EORI only. -/
theorem encodedBy_immediateRow {e : Bool} {mk : Cond → Reg → Reg → Word → Instr}
    (hmk : mk ∈ [Instr.addi, Instr.subi, Instr.andi, Instr.orri, Instr.eori])
    (heori : (mk .al 0 0 0).opcode = .eori → e = true) :
    EncodedBy e (mk .al 0 0 0).rowMask (mk .al 0 0 0).rowMatch (fun w => mk .al (rdOf w) (rnOf w) (imm12Of w)) := by
  intro w hrow
  obtain ⟨hsel, hclass, hzero⟩ := (and_rowMask_eq_iff _ w).mp hrow
  simp only [List.mem_cons, List.not_mem_nil, or_false] at hmk
  obtain rfl | rfl | rfl | rfl | rfl := hmk
  case' inr.inr.inr.inr => obtain rfl := heori rfl
  all_goals
    have hreserved : ¬ w.extractLsb' 22 4 ≠ 0#4 := by simpa [Instr.reservedFields] using hzero
    rw [decode_immediate _ hclass, decodeImmediate, if_neg hreserved, hsel]
    rfl

/-- Without DECODE_EORI a word of EORI's row is INVALID: an instruction decoded from it would be of that row, and
the decoder gives none of it. -/
theorem decodeRecord_invalid_of_eoriRow {w : InstrWord}
    (hrow : w &&& (Instr.eori .al 0 0 0).rowMask = (Instr.eori .al 0 0 0).rowMatch) :
    (decodeRecord false w).opcode = .invalid := by
  refine decodeRecord_invalid_iff.mpr fun i hi => ?_
  obtain ⟨hbits, heori⟩ := selects_of_decode hi
  obtain ⟨-, -, hopcode⟩ := sameRow_of_rowMatch_eq (rowMatch_eq_of_word hbits hrow)
  exact absurd (heori hopcode) Bool.false_ne_true

/-! ### The statements -/

/-- Settles O14: two rows of the immediate class, each the arithmetic effect of the adder's result and flags. -/
theorem arithmeticImmediate : Obligations.ArithmeticImmediate := by
  refine ⟨fun e => ⟨?_, ?_⟩, fun c rd rn imm s hc => ⟨?addi, ?subi⟩⟩
  · exact encodedBy_immediateRow (mk := .addi) (by simp) nofun
  · exact encodedBy_immediateRow (mk := .subi) (by simp) nofun
  case addi => exact ⟨_, exec_of_holds (i := .addi c rd rn imm) hc, s.finishArith_addFlags_effect rd _ _⟩
  case subi => exact ⟨_, exec_of_holds (i := .subi c rd rn imm) hc, s.finishArith_subFlags_effect rd _ _⟩

/-- Settles O15: two rows of the immediate class, each the logical effect of its own bitwise result. -/
theorem logicalImmediate : Obligations.LogicalImmediate := by
  refine ⟨fun e => ⟨?_, ?_⟩, fun c rd rn imm s hc => ⟨?andi, ?orri⟩⟩
  · exact encodedBy_immediateRow (mk := .andi) (by simp) nofun
  · exact encodedBy_immediateRow (mk := .orri) (by simp) nofun
  case andi => exact ⟨_, exec_of_holds (i := .andi c rd rn imm) hc, s.finishLogical_effect rd _⟩
  case orri => exact ⟨_, exec_of_holds (i := .orri c rd rn imm) hc, s.finishLogical_effect rd _⟩

/-- Settles O16: EORI's row under DECODE_EORI and without it, and the logical effect of the exclusive or, for which
DECODE_EORI does not matter. -/
theorem exclusiveOrImmediate : Obligations.ExclusiveOrImmediate := by
  refine ⟨?decoded, fun w => decodeRecord_invalid_of_eoriRow, fun c rd rn imm s hc => ?completes⟩
  case decoded => exact encodedBy_immediateRow (mk := .eori) (by simp) fun _ => rfl
  case completes => exact ⟨_, exec_of_holds (i := .eori c rd rn imm) hc, s.finishLogical_effect rd _⟩

end Sys2Proof.Machine
end

section
/-! SUPPORT and the statements of 43_load_store. First the words of the load/store class; then the bytes of a
64-bit value; then what a load and a store that complete leave, as the effect each rule states, and where they
fault; then the execute stage on any record; last the four statements. -/

namespace Sys2Proof.Machine

/-! ### The words of the load/store class (30_encoding R77, R89) -/

/-- Every word with the fixed bits of a row of the load/store class decodes to the row's instruction, with the
operands of the word's fields. -/
theorem encodedBy_loadStoreRow (e : Bool) {mk : Cond → Reg → Reg → Word → Instr}
    (hmk : mk ∈ [Instr.sturOffset, Instr.sturPreIndex, Instr.sturPostIndex, Instr.ldurOffset, Instr.ldurPreIndex,
      Instr.ldurPostIndex]) :
    EncodedBy e (mk .al 0 0 0).rowMask (mk .al 0 0 0).rowMatch (fun w => mk .al (rdOf w) (rnOf w) (imm16Of w)) := by
  intro w hrow
  obtain ⟨hsel, hclass, -⟩ := (and_rowMask_eq_iff _ w).mp hrow
  simp only [List.mem_cons, List.not_mem_nil, or_false] at hmk
  obtain rfl | rfl | rfl | rfl | rfl | rfl := hmk
  all_goals
    rw [decode_loadStore e hclass, decodeLoadStore, hsel]
    rfl

/-! ### The bytes of a 64-bit value (20_memory R44) -/

/-- The byte of the word of a number is the byte of the number. -/
theorem extractLsb'_ofNat_byte (x : Nat) {i : Nat} (hi : i < 8) :
    (BitVec.ofNat 64 x).extractLsb' (8 * i) 8 = BitVec.ofNat 8 (x / 2 ^ (8 * i)) := by
  refine BitVec.eq_of_getLsbD_eq fun k hk => ?_
  have hbit : 8 * i + k < 64 := by omega
  simp only [BitVec.getLsbD_extractLsb', BitVec.getLsbD_ofNat, Nat.testBit_div_two_pow, hk, hbit, decide_true,
    Bool.true_and, Nat.add_comm k]

/-- The word read from eight bytes of memory consists of those bytes. -/
theorem extractLsb'_leValue_bytes (m : List Host.Cell) (a : Nat) {i : Nat} (hi : i < 8) :
    (BitVec.ofNat 64 (leValue (Memory.bytes m a 8))).extractLsb' (8 * i) 8 = Memory.byte m (a + i) := by
  have hlen : i < (Memory.bytes m a 8).length := by simpa using hi
  rw [extractLsb'_ofNat_byte _ hi, leValue_div _ i hlen, Memory.bytes_getElem]

/-- A word is determined by its eight bytes. -/
theorem eq_of_bytes_eq {v w : Word} (h : ∀ i < 8, v.extractLsb' (8 * i) 8 = w.extractLsb' (8 * i) 8) : v = w := by
  refine BitVec.eq_of_getLsbD_eq fun k hk => ?_
  have hbit := congrArg (·.getLsbD (k % 8)) (h (k / 8) (by omega))
  have hlow : k % 8 < 8 := Nat.mod_lt k (by decide)
  simpa [hlow, Nat.div_add_mod] using hbit

/-! ### A load that completes, and one that faults (43_load_store R171) -/

theorem exec_ldurOf {c : Cond} {s : State} (m : Indexing) (rt rn : Reg) (imm : Word) (h : c.holds s.flags = true) :
    exec (ldurOf m c rt rn imm) s = .next (s.load m rt rn imm) := by
  cases m with
  | offset => exact exec_of_holds (i := .ldurOffset c rt rn imm) h
  | preIndex => exact exec_of_holds (i := .ldurPreIndex c rt rn imm) h
  | postIndex => exact exec_of_holds (i := .ldurPostIndex c rt rn imm) h

/-- The writeback comes last, so it wins where rt and rn are one register. -/
theorem State.load_effect {s : State} {m : Indexing} {rn : Reg} {imm : Word} (rt : Reg)
    (h : (effectiveAddress m (s.reg rn) imm).toNat + 8 ≤ s.cfg.memSize) :
    s.LoadEffect (s.load m rt rn imm) (effectiveAddress m (s.reg rn) imm) rt rn
      (writebackValue m (s.reg rn) imm) := by
  obtain ⟨hfault, -⟩ | ⟨-, hload⟩ := load_cases s m rt rn imm
  · omega
  · rw [hload]
    refine ⟨⟨_, fun i hi => extractLsb'_leValue_bytes s.mem _ hi, fun r => ?_⟩, by simp, fun a => by simp,
      retiredAt_retire s.nextPc (by simp) (by simp) (by simp) (by simp)⟩
    rw [reg_retire]
    cases writebackValue m (s.reg rn) imm with
    | none => exact reg_setReg s rt _ r
    | some b => exact reg_setReg s rt _ r ▸ reg_setReg _ rn b r

theorem State.load_faulted {s : State} {m : Indexing} {rn : Reg} {imm : Word} (rt : Reg)
    (h : s.cfg.memSize < (effectiveAddress m (s.reg rn) imm).toNat + 8) :
    s.Faulted (s.load m rt rn imm) (.outOfBounds s.pc (effectiveAddress m (s.reg rn) imm) 8) := by
  obtain ⟨-, hload⟩ | ⟨hinside, -⟩ := load_cases s m rt rn imm
  · exact hload
  · omega

/-! ### A store that completes, and one that faults (43_load_store R172) -/

theorem exec_sturOf {c : Cond} {s : State} (m : Indexing) (rt rn : Reg) (imm : Word) (h : c.holds s.flags = true) :
    exec (sturOf m c rt rn imm) s = .next (s.store m rt rn imm) := by
  cases m with
  | offset => exact exec_of_holds (i := .sturOffset c rt rn imm) h
  | preIndex => exact exec_of_holds (i := .sturPreIndex c rt rn imm) h
  | postIndex => exact exec_of_holds (i := .sturPostIndex c rt rn imm) h

/-- The stored value and the written back one are both read from the old registers. -/
theorem State.store_effect {s : State} {m : Indexing} {rn : Reg} {imm : Word} (rt : Reg) (hwf : Memory.wf s.mem)
    (h : (effectiveAddress m (s.reg rn) imm).toNat + 8 ≤ s.cfg.memSize) :
    s.StoreEffect (s.store m rt rn imm) (effectiveAddress m (s.reg rn) imm) (s.reg rt) rn
      (writebackValue m (s.reg rn) imm) := by
  obtain ⟨hfault, -⟩ | ⟨-, hstore⟩ := store_cases s m rt rn imm
  · omega
  · obtain ⟨hinside, houtside, -⟩ :=
      writesBytes_setBytes hwf (effectiveAddress m (s.reg rn) imm) 8 (s.reg rt).toNat
    rw [hstore]
    refine ⟨fun i hi => BitVec.eq_of_toNat_eq ?_, fun a ha => ?_, ?_, by simp,
      retiredAt_retire s.nextPc (by simp) (by simp) (by simp) (by simp)⟩
    · rw [byte_retire, byte_writeback, hinside i hi, BitVec.extractLsb'_toNat, Nat.shiftRight_eq_div_pow]
    · rw [byte_retire, byte_writeback, houtside a ha]
    · cases writebackValue m (s.reg rn) imm with
      | none => exact fun r => rfl
      | some b => exact fun r => reg_setReg _ rn b r

theorem State.store_faulted {s : State} {m : Indexing} {rn : Reg} {imm : Word} (rt : Reg)
    (h : s.cfg.memSize < (effectiveAddress m (s.reg rn) imm).toNat + 8) :
    s.Faulted (s.store m rt rn imm) (.outOfBounds s.pc (effectiveAddress m (s.reg rn) imm) 8) := by
  obtain ⟨-, hstore⟩ | ⟨hinside, -⟩ := store_cases s m rt rn imm
  · exact hstore
  · omega

/-- A load from where a store stored reads the stored value: the two effects name the same eight bytes. -/
theorem State.reg_of_store_then_load {s t u : State} {ea v : Word} {rt rn rn' : Reg} {wb : Option Word}
    (hstore : s.StoreEffect t ea v rn wb) (hload : t.LoadEffect u ea rt rn' none) :
    u.reg rt = if rt = xzr then 0#64 else v := by
  obtain ⟨hstored, -⟩ := hstore
  obtain ⟨⟨x, hloaded, hreg⟩, -⟩ := hload
  have hx : x = v := eq_of_bytes_eq fun i hi => (hloaded i hi).trans (hstored i hi)
  rw [hreg rt, hx]
  by_cases hrt : rt = xzr
  · subst hrt; rfl
  · simp [hrt]

/-! ### The execute stage on any record (40_execution_cycle R113, 43_load_store R175) -/

theorem writebackMode_iff (m : AddrMode) : writebackMode m = true ↔ m = .preIndex ∨ m = .postIndex := by
  cases m <;> decide

/-- The writeback flag agrees with the mode: what the statement says of a record, as `present` tests it. -/
theorem writeback_agrees_iff (r : Record) :
    (r.writeback = true ↔ r.mode = .preIndex ∨ r.mode = .postIndex) ↔ r.writeback = writebackMode r.mode :=
  (iff_congr Iff.rfl (writebackMode_iff r.mode).symm).trans Bool.eq_iff_iff.symm

theorem present_of_invalid {r : Record} (h : r.opcode = .invalid) : present r = .invalid := by
  rw [present, if_pos h]

theorem present_of_literal {r : Record} (hop : r.opcode ≠ .invalid) (hmode : r.mode = .literal) :
    present r = .refused .literalMode := by
  rw [present, if_neg hop, if_pos hmode]

theorem present_of_mismatch {r : Record} (hop : r.opcode ≠ .invalid) (hmode : r.mode ≠ .literal)
    (hwb : r.writeback ≠ writebackMode r.mode) : present r = .refused .writebackMismatch := by
  rw [present, if_neg hop, if_neg hmode, if_pos hwb]

/-- Every other record is presented as an instruction with its values in the fields its opcode uses. -/
theorem present_of_agrees {r : Record} (hop : r.opcode ≠ .invalid) (hmode : r.mode ≠ .literal)
    (hwb : r.writeback = writebackMode r.mode) : ∃ i, present r = .instr i ∧ SameUsedFields i.toRecord r := by
  have hnot : ¬ r.writeback ≠ writebackMode r.mode := not_not_intro hwb
  rw [present, if_neg hop, if_neg hmode, if_neg hnot]
  obtain ⟨opcode, cond, rd, rn, rm, ra, imm, shift, mode, wb⟩ := r
  obtain rfl : wb = writebackMode mode := hwb
  cases opcode with
  | invalid => exact absurd rfl hop
  | and | eor | sub | add | orr => exact ⟨_, rfl, rfl, rfl, rfl, rfl, rfl, rfl⟩
  | addi | subi | andi | orri | eori => exact ⟨_, rfl, rfl, rfl, rfl, rfl, rfl⟩
  | stur | ldur =>
    cases mode with
    | literal => exact absurd rfl hmode
    | offset | preIndex | postIndex => exact ⟨_, rfl, rfl, rfl, rfl, rfl, rfl, rfl, rfl⟩
  | b | bl | br | blr | ret => exact ⟨_, rfl, rfl, rfl, rfl⟩
  | cbz | cbnz => exact ⟨_, rfl, rfl, rfl, rfl, rfl⟩

theorem toRecord_opcode (i : Instr) : i.toRecord.opcode = i.opcode := by cases i <;> rfl

theorem toRecord_cond (i : Instr) : i.toRecord.cond = i.cond := by cases i <;> rfl

/-- An instruction's own record stands for it. -/
theorem present_toRecord (i : Instr) : present i.toRecord = .instr i := by cases i <;> rfl

theorem executeRecord_of_instr {r : Record} {i : Instr} (h : present r = .instr i) (s : State) :
    executeRecord r s = exec i s := by
  rw [executeRecord, h]

/-- An instruction's own record is none of the refused ones (30_encoding R88). -/
theorem toRecord_agrees (i : Instr) :
    i.toRecord.mode ≠ .literal ∧ i.toRecord.writeback = writebackMode i.toRecord.mode := by
  cases i <;> exact ⟨nofun, rfl⟩

/-- Nor is the record of any word, rejected ones included. -/
theorem decodeRecord_agrees (e : Bool) (w : InstrWord) :
    (decodeRecord e w).mode ≠ .literal ∧
      (decodeRecord e w).writeback = writebackMode (decodeRecord e w).mode := by
  unfold decodeRecord
  cases decode e w with
  | ok i => exact toRecord_agrees i
  | error u => exact ⟨nofun, rfl⟩

/-! ### The statements -/

/-- Settles O17: three rows of the load/store class; the load's effect inside the bound, its fault outside. -/
theorem loadRegister : Obligations.LoadRegister := by
  refine ⟨fun base imm => ⟨rfl, rfl, rfl, rfl, rfl, rfl⟩, fun e => ⟨?_, ?_, ?_⟩,
    fun m c rt rn imm s hc hinside => ?completes, fun m c rt rn imm s hc houtside => ?faults⟩
  · exact encodedBy_loadStoreRow e (mk := .ldurOffset) (by simp)
  · exact encodedBy_loadStoreRow e (mk := .ldurPreIndex) (by simp)
  · exact encodedBy_loadStoreRow e (mk := .ldurPostIndex) (by simp)
  case completes => exact ⟨_, exec_ldurOf m rt rn imm hc, State.load_effect rt hinside⟩
  case faults => exact ⟨_, exec_ldurOf m rt rn imm hc, State.load_faulted rt houtside⟩

/-- Settles O18: three rows of the load/store class; the store's effect inside the bound, its fault outside. -/
theorem storeRegister : Obligations.StoreRegister := by
  refine ⟨fun base imm => ⟨rfl, rfl, rfl, rfl, rfl, rfl⟩, fun e => ⟨?_, ?_, ?_⟩,
    fun m c rt rn imm s hs hc hinside => ?completes, fun m c rt rn imm s hc houtside => ?faults⟩
  · exact encodedBy_loadStoreRow e (mk := .sturOffset) (by simp)
  · exact encodedBy_loadStoreRow e (mk := .sturPreIndex) (by simp)
  · exact encodedBy_loadStoreRow e (mk := .sturPostIndex) (by simp)
  case completes =>
    obtain ⟨hwf, -⟩ := hs
    exact ⟨_, exec_sturOf m rt rn imm hc, State.store_effect rt hwf hinside⟩
  case faults => exact ⟨_, exec_sturOf m rt rn imm hc, State.store_faulted rt houtside⟩

/-- Settles O32: the store in OFFSET mode changes no register and no parameter, so the load has the store's
address and is admitted too. -/
theorem storeThenLoad : Obligations.StoreThenLoad := by
  rintro s rt rt' rn imm ⟨hwf, -⟩ hinside
  have hstore : s.StoreEffect (s.store .offset rt rn imm) (s.reg rn + imm) (s.reg rt) rn none :=
    State.store_effect rt hwf hinside
  have ⟨_, _, hregs, _, _, _, _, _, _, hcfg⟩ := hstore
  have hload : (s.store .offset rt rn imm).LoadEffect ((s.store .offset rt rn imm).load .offset rt' rn imm)
      (s.reg rn + imm) rt' rn none := by
    rw [← hregs rn, ← hcfg] at hinside
    exact hregs rn ▸ State.load_effect rt' hinside
  exact ⟨_, _, exec_sturOf .offset rt rn imm rfl, exec_ldurOf .offset rt' rn imm rfl,
    State.reg_of_store_then_load hstore hload⟩

/-- Settles O42: the four cases of a record are those `present` tells apart, in its order. -/
theorem executeStageRecords : Obligations.ExecuteStageRecords := by
  refine ⟨fun r s hop => ?invalid, fun r s hop hmode => ?literal, fun r s hop hmode hwb => ?mismatch,
    fun r s hop hmode hwb => ?executed, fun i s => executeRecord_of_instr (present_toRecord i) s,
    fun e w => ?decoded⟩
  case invalid => rw [executeRecord, present_of_invalid hop]; rfl
  case literal => rw [executeRecord, present_of_literal hop hmode]
  case mismatch =>
    rw [writeback_agrees_iff] at hwb
    rw [executeRecord, present_of_mismatch hop hmode hwb]
  case executed =>
    obtain ⟨i, hpresent, hfields⟩ := present_of_agrees hop hmode ((writeback_agrees_iff r).mp hwb)
    have ⟨hopcode, hcond, _⟩ := hfields
    exact ⟨i, _, (toRecord_opcode i).symm.trans hopcode, (toRecord_cond i).symm.trans hcond, hfields,
      executeRecord_of_instr hpresent s, exec_eq i s⟩
  case decoded =>
    obtain ⟨hmode, hwb⟩ := decodeRecord_agrees e w
    exact ⟨hmode, (writeback_agrees_iff _).mpr hwb⟩

end Sys2Proof.Machine
end

section
/-! SUPPORT and the statements of 44_branch. First the words of the branch class, format by format; then what a
branch and a linking branch leave, as the effect each rule states; last the five statements. -/

namespace Sys2Proof.Machine

/-! ### The words of the branch class (30_encoding R78, R79, R80, R89) -/

/-- Every word with the fixed bits of B or BL decodes to it; the format has no reserved field. -/
theorem encodedBy_branchRow (e : Bool) {mk : Cond → Word → Instr} (hmk : mk ∈ [Instr.b, Instr.bl]) :
    EncodedBy e (mk .al 0).rowMask (mk .al 0).rowMatch (fun w => mk .al (imm26Of w)) := by
  intro w hrow
  obtain ⟨hsel, hclass, -⟩ := (and_rowMask_eq_iff _ w).mp hrow
  simp only [List.mem_cons, List.not_mem_nil, or_false] at hmk
  obtain rfl | rfl := hmk
  all_goals
    rw [decode_branch e hclass, decodeBranch, hsel]
    rfl

/-- Every word with the fixed bits of BR, BLR or RET decodes to it; the operand is the field itself, except that
RET's field 0 names X30 (30_encoding R88). -/
theorem encodedBy_branchRegisterRow (e : Bool) {mk : Cond → Reg → Instr} {operand : Reg → Reg}
    (hmk : (mk, operand) ∈ [(Instr.br, id), (Instr.blr, id), (Instr.ret, retTarget)]) :
    EncodedBy e (mk .al 0).rowMask (mk .al 0).rowMatch (fun w => mk .al (operand (rnOf w))) := by
  intro w hrow
  obtain ⟨hsel, hclass, hzero⟩ := (and_rowMask_eq_iff _ w).mp hrow
  simp only [List.mem_cons, List.not_mem_nil, or_false, Prod.mk.injEq] at hmk
  obtain ⟨rfl, rfl⟩ | ⟨rfl, rfl⟩ | ⟨rfl, rfl⟩ := hmk
  all_goals
    obtain ⟨hupper, hlower⟩ : w.extractLsb' 10 16 = 0#16 ∧ w.extractLsb' 0 5 = 0#5 := by
      simpa [Instr.reservedFields] using hzero
    rw [decode_branch e hclass, decodeBranch, hsel, hupper, hlower]
    rfl

/-- Every word with the fixed bits of CBZ or CBNZ decodes to it, the tested register in the field rt. -/
theorem encodedBy_compareBranchRow (e : Bool) {mk : Cond → Reg → Word → Instr} (hmk : mk ∈ [Instr.cbz, Instr.cbnz]) :
    EncodedBy e (mk .al 0 0).rowMask (mk .al 0 0).rowMatch (fun w => mk .al (rdOf w) (imm19Of w)) := by
  intro w hrow
  obtain ⟨hsel, hclass, hzero⟩ := (and_rowMask_eq_iff _ w).mp hrow
  simp only [List.mem_cons, List.not_mem_nil, or_false] at hmk
  obtain rfl | rfl := hmk
  all_goals
    have hreserved : w.extractLsb' 24 2 = 0#2 := by simpa [Instr.reservedFields] using hzero
    rw [decode_branch e hclass, decodeBranch, hsel, hreserved]
    rfl

/-! ### A branch that completes: target, link and frame -/

theorem State.retire_branchEffect (s : State) (target : Word) : s.BranchEffect (s.retire target) target :=
  ⟨reg_retire s target, retire_flags s target, byte_retire s target, retire_retiredAt s target⟩

/-- The target is a value, so it is read before X30 is written: with the target `s.reg linkReg` the branch goes to
the old X30 (44_branch R194). -/
theorem State.link_retire_linkEffect (s : State) (target : Word) : s.LinkEffect (s.link.retire target) target :=
  ⟨reg_setReg s linkReg s.nextPc, link_flags s, byte_link s, link_retire_retiredAt s target⟩

/-- CBNZ with its outcomes in the order of CBZ's: not taken where the register is 0 (44_branch R197). -/
theorem body_cbnz (c : Cond) (rt : Reg) (imm : Word) (s : State) :
    body (.cbnz c rt imm) s = s.retire (if s.reg rt = 0#64 then s.nextPc else s.branchTarget imm) :=
  congrArg s.retire (ite_not ..)

/-! ### The statements -/

/-- Settles O19: the row of B; the branch to pc + imm. -/
theorem branch : Obligations.Branch := by
  refine ⟨fun e => ?decoded, fun c imm s hc => ?completes⟩
  case decoded => exact encodedBy_branchRow e (mk := .b) (by simp)
  case completes => exact ⟨_, exec_of_holds (i := .b c imm) hc, s.retire_branchEffect _⟩

/-- Settles O20: the row of BL; the linking branch to pc + imm. -/
theorem branchWithLink : Obligations.BranchWithLink := by
  refine ⟨fun e => ?decoded, fun c imm s hc => ?completes⟩
  case decoded => exact encodedBy_branchRow e (mk := .bl) (by simp)
  case completes => exact ⟨_, exec_of_holds (i := .bl c imm) hc, s.link_retire_linkEffect _⟩

/-- Settles O21: the rows of BR and RET, which differ in field 0 alone; both branch to the register's value. -/
theorem branchToRegister : Obligations.BranchToRegister := by
  refine ⟨fun e => ⟨?_, ?_⟩, fun c rn s hc => ⟨?br, ?ret⟩⟩
  · exact encodedBy_branchRegisterRow e (mk := .br) (operand := id) (by simp)
  · exact encodedBy_branchRegisterRow e (mk := .ret) (operand := retTarget) (by simp)
  case br => exact ⟨_, exec_of_holds (i := .br c rn) hc, s.retire_branchEffect _⟩
  case ret => exact ⟨_, exec_of_holds (i := .ret c rn) hc, s.retire_branchEffect _⟩

/-- Settles O22: the row of BLR; the linking branch to the value the register had before the link. -/
theorem branchWithLinkToRegister : Obligations.BranchWithLinkToRegister := by
  refine ⟨fun e => ?decoded, fun c rn s hc => ?completes⟩
  case decoded => exact encodedBy_branchRegisterRow e (mk := .blr) (operand := id) (by simp)
  case completes => exact ⟨_, exec_of_holds (i := .blr c rn) hc, s.link_retire_linkEffect _⟩

/-- Settles O23: the rows of CBZ and CBNZ; each is the branch to the target its test of the register selects. -/
theorem compareAndBranch : Obligations.CompareAndBranch := by
  refine ⟨fun e => ⟨?_, ?_⟩, fun c rt imm s hc => ⟨?cbz, ?cbnz⟩⟩
  · exact encodedBy_compareBranchRow e (mk := .cbz) (by simp)
  · exact encodedBy_compareBranchRow e (mk := .cbnz) (by simp)
  case cbz => exact ⟨_, exec_of_holds (i := .cbz c rt imm) hc, s.retire_branchEffect _⟩
  case cbnz => exact ⟨_, exec_of_holds (i := .cbnz c rt imm) hc, body_cbnz c rt imm s ▸ s.retire_branchEffect _⟩

end Sys2Proof.Machine
end

section
/-! SUPPORT and the statement of 60_exceptions. First the condition of a decoded instruction, so that the gate of a
step is open; then the faults an instruction raises; last the statement. -/

namespace Sys2Proof

/-! ### A decoded instruction is unconditional (30_encoding R81), class by class -/

theorem cond_of_decodeRegister {w : InstrWord} {i : Instr} (h : decodeRegister w = .ok i) : i.cond = .al := by
  unfold decodeRegister at h
  split_ifs at h <;> cases h <;> rfl

theorem cond_of_decodeImmediate {e : Bool} {w : InstrWord} {i : Instr} (h : decodeImmediate e w = .ok i) :
    i.cond = .al := by
  unfold decodeImmediate at h
  split_ifs at h <;> cases h <;> rfl

theorem cond_of_decodeLoadStore {w : InstrWord} {i : Instr} (h : decodeLoadStore w = .ok i) : i.cond = .al := by
  unfold decodeLoadStore at h
  split_ifs at h <;> cases h <;> rfl

theorem cond_of_decodeBranch {w : InstrWord} {i : Instr} (h : decodeBranch w = .ok i) : i.cond = .al := by
  unfold decodeBranch at h
  split_ifs at h <;> cases h <;> rfl

theorem cond_of_decode {e : Bool} {w : InstrWord} {i : Instr} (h : decode e w = .ok i) : i.cond = .al := by
  unfold decode at h
  split_ifs at h
  · exact cond_of_decodeRegister h
  · exact cond_of_decodeImmediate h
  · exact cond_of_decodeLoadStore h
  · exact cond_of_decodeBranch h

end Sys2Proof

namespace Sys2Proof.Machine

/-! ### The faults of an instruction (60_exceptions R231) -/

/-- The eight bytes at the effective address do not lie inside the memory, and the record says so. -/
def State.AccessFaults (s : State) (m : Indexing) (rn : Reg) (imm : Word) (f : Fault) : Prop :=
  s.cfg.memSize < (effectiveAddress m (s.reg rn) imm).toNat + 8 ∧
    f = .outOfBounds s.pc (effectiveAddress m (s.reg rn) imm) 8

theorem State.load_result_fault_iff {s : State} {m : Indexing} {rt rn : Reg} {imm : Word} {f : Fault} :
    (s.load m rt rn imm).result = some (.haltedOnFault f) ↔ s.AccessFaults m rn imm f := by
  unfold AccessFaults
  obtain ⟨houtside, hload⟩ | ⟨hinside, hload⟩ := load_cases s m rt rn imm
  · simp [hload, houtside, eq_comm]
  · simp [hload, hinside.not_gt]

theorem State.store_result_fault_iff {s : State} {m : Indexing} {rt rn : Reg} {imm : Word} {f : Fault} :
    (s.store m rt rn imm).result = some (.haltedOnFault f) ↔ s.AccessFaults m rn imm f := by
  unfold AccessFaults
  obtain ⟨houtside, hstore⟩ | ⟨hinside, hstore⟩ := store_cases s m rt rn imm
  · simp [hstore, houtside, eq_comm]
  · simp [hstore, hinside.not_gt]

theorem body_ldurOf (m : Indexing) (c : Cond) (rt rn : Reg) (imm : Word) (s : State) :
    body (ldurOf m c rt rn imm) s = s.load m rt rn imm := by
  cases m <;> rfl

theorem body_sturOf (m : Indexing) (c : Cond) (rt rn : Reg) (imm : Word) (s : State) :
    body (sturOf m c rt rn imm) s = s.store m rt rn imm := by
  cases m <;> rfl

theorem State.RetiredAt.result_ne_fault {s t : State} {target : Word} {f : Fault} (h : s.RetiredAt t target) :
    t.result ≠ some (.haltedOnFault f) := by
  obtain ⟨-, hcontinued, -⟩ := h
  simp [hcontinued]

/-- Of all instructions LDUR and STUR alone raise a fault, each for its own access. -/
theorem body_result_fault_iff {i : Instr} {s : State} {f : Fault} :
    (body i s).result = some (.haltedOnFault f) ↔
      ∃ m rt rn imm, (i = ldurOf m i.cond rt rn imm ∨ i = sturOf m i.cond rt rn imm) ∧
        s.AccessFaults m rn imm f := by
  constructor
  · intro h
    cases i with
    | ldurOffset _ rt rn imm => exact ⟨.offset, rt, rn, imm, .inl rfl, State.load_result_fault_iff.mp h⟩
    | ldurPreIndex _ rt rn imm => exact ⟨.preIndex, rt, rn, imm, .inl rfl, State.load_result_fault_iff.mp h⟩
    | ldurPostIndex _ rt rn imm => exact ⟨.postIndex, rt, rn, imm, .inl rfl, State.load_result_fault_iff.mp h⟩
    | sturOffset _ rt rn imm => exact ⟨.offset, rt, rn, imm, .inr rfl, State.store_result_fault_iff.mp h⟩
    | sturPreIndex _ rt rn imm => exact ⟨.preIndex, rt, rn, imm, .inr rfl, State.store_result_fault_iff.mp h⟩
    | sturPostIndex _ rt rn imm => exact ⟨.postIndex, rt, rn, imm, .inr rfl, State.store_result_fault_iff.mp h⟩
    | and | eor | orr | andi | orri | eori => exact absurd h (State.finishLogical_retiredAt ..).result_ne_fault
    | add | sub | addi | subi => exact absurd h (State.finishArith_retiredAt ..).result_ne_fault
    | b | br | ret | cbz | cbnz => exact absurd h (State.retire_retiredAt ..).result_ne_fault
    | bl | blr => exact absurd h (State.link_retire_retiredAt ..).result_ne_fault
  · rintro ⟨m, rt, rn, imm, hi | hi, hfault⟩
    · rw [hi, body_ldurOf]
      exact State.load_result_fault_iff.mpr hfault
    · rw [hi, body_sturOf]
      exact State.store_result_fault_iff.mpr hfault

/-! ### The step of a decoded instruction (40_execution_cycle R109) -/

/-- The gate is open for every decoded instruction, so the step is the instruction's own effect. -/
theorem step_of_decode {s : State} {w : InstrWord} {i : Instr} (hrunning : s.running = true)
    (hpc : s.pc ∉ s.breakpoints) (hfetch : s.fetch = some w) (hdecode : decode s.cfg.decodeEori w = .ok i) :
    step s = .next (body i s) := by
  have hholds : i.cond.holds s.flags = true := by rw [cond_of_decode hdecode]; rfl
  simp [step, hrunning, hpc, hfetch, hdecode, exec_of_holds hholds]

/-! ### The statement -/

/-- Settles O40: the stages of a step that can end it in a fault are the fetch, the INVALID check and the
instruction's own effect; an instruction is reached unconditionally, and raises a fault for its access alone. -/
theorem faultCauses : Obligations.FaultCauses := by
  intro s f
  constructor
  · rintro ⟨t, hstep, hresult⟩
    obtain ⟨-, ht⟩ | ⟨-, -, ht⟩ | ⟨hr, hb, hfetch, ht⟩ | ⟨w, u, hr, hb, hfetch, hdecode, ht⟩ |
      ⟨w, i, hr, hb, hfetch, hdecode, -⟩ := step_cases hstep
    · cases ht; simp at hresult
    · cases ht; simp at hresult
    · cases ht; cases hresult
      exact ⟨hr, hb, .inl ⟨State.fetch_eq_none.mp hfetch, rfl⟩⟩
    · cases ht; cases hresult
      have hinvalid := decodeRecord_invalid_iff.mpr (hdecode ▸ rejected_error u)
      exact ⟨hr, hb, .inr (.inl ⟨w, hfetch, hinvalid, rfl⟩)⟩
    · rw [step_of_decode hr hb hfetch hdecode] at hstep
      cases hstep
      obtain ⟨m, rt, rn, imm, hi, haccess⟩ := body_result_fault_iff.mp hresult
      rw [cond_of_decode hdecode] at hi
      refine ⟨hr, hb, .inr (.inr ⟨w, m, rt, rn, imm, hfetch, ?_, haccess⟩)⟩
      simpa only [hdecode, Except.ok.injEq] using hi
  · rintro ⟨hr, hb, ⟨houtside, rfl⟩ | ⟨w, hfetch, hinvalid, rfl⟩ |
      ⟨w, m, rt, rn, imm, hfetch, hload | hstore, haccess⟩⟩
    · exact ⟨_, step_of_fetch_none hr hb (State.fetch_eq_none.mpr houtside), rfl⟩
    · exact ⟨_, step_of_rejected hr hb hfetch (decodeRecord_invalid_iff.mp hinvalid), rfl⟩
    · refine ⟨_, step_of_decode hr hb hfetch hload, ?_⟩
      rw [body_ldurOf]
      exact State.load_result_fault_iff.mpr haccess
    · refine ⟨_, step_of_decode hr hb hfetch hstore, ?_⟩
      rw [body_sturOf]
      exact State.store_result_fault_iff.mpr haccess

end Sys2Proof.Machine
end

section
/-! SUPPORT and the statement of 70_reset_and_hazards. First what an admitted and a rejected load_program
answers; last the statement. -/

namespace Sys2Proof.Machine

/-! ### The two answers of load_program -/

/-- An image that fits (70_reset_and_hazards R265). -/
theorem Port.loadProgram_inside {s : State} {bytes : List Byte} {a : Word}
    (h : a.toNat + bytes.length ≤ s.cfg.memSize) :
    Port.loadProgram s bytes a = .ok { s with mem := Memory.setBytes s.mem a.toNat bytes, pc := a } := by
  rw [Port.loadProgram_eq, if_pos h]

/-- An image that does not fit (70_reset_and_hazards R266). -/
theorem Port.loadProgram_outside {s : State} {bytes : List Byte} {a : Word}
    (h : s.cfg.memSize < a.toNat + bytes.length) : Port.loadProgram s bytes a = .error .outOfBounds := by
  rw [Port.loadProgram_eq, if_neg h.not_ge]

/-- The load_program command is the operation, an error leaving the state as it was. -/
theorem Port.apply_loadProgram (s : State) (bytes : List Byte) (a : Word) :
    Port.apply (.loadProgram bytes a) s = .next (Port.attempt s (Port.loadProgram s bytes a)) := rfl

/-! ### The statement -/

/-- Settles O55: on a canonical memory the bytes set are the image's own, at its range alone; an image that
does not fit is refused before anything is written. -/
theorem loadProgram : Obligations.LoadProgram := by
  rintro s bytes a ⟨hwf, -⟩
  refine ⟨fun hinside => ?_, fun houtside => ?_⟩
  · exact ⟨_, Port.loadProgram_inside hinside, rfl, Memory.byte_setBytes_inside hwf a.toNat bytes,
      Memory.byte_setBytes_outside hwf a.toNat bytes, rfl⟩
  · have hrejected := Port.loadProgram_outside houtside
    exact ⟨hrejected, by rw [Port.apply_loadProgram, hrejected]; rfl⟩

end Sys2Proof.Machine
end

section
/-! SUPPORT and the statements of 30_encoding on words and instructions. First the immediates as signed integers and
the ranges they lie in; then the encoder format by format, from operands to fields and from fields back to the word;
last the five statements. -/

namespace Sys2Proof

/-! ### The immediates as integers (30_encoding R83, R85, R86) -/

/-- A field in two's complement, its top bit tested on the unsigned value (00_scope R8). -/
theorem toInt_eq_unsigned_sub {n : Nat} (x : BitVec (n + 1)) :
    x.toInt = if x.toNat < 2 ^ n then (x.toNat : Int) else (x.toNat : Int) - 2 ^ (n + 1) := by
  have htop : 2 * x.toNat < 2 ^ (n + 1) ↔ x.toNat < 2 ^ n := by omega
  simp only [BitVec.toInt_eq_toNat_cond, htop, Nat.cast_pow, Nat.cast_ofNat]

theorem toInt_imm12Of (w : InstrWord) : (imm12Of w).toInt = (w.extractLsb' 10 12).toInt :=
  BitVec.toInt_signExtend_of_le (by decide)

theorem toInt_imm16Of (w : InstrWord) : (imm16Of w).toInt = (w.extractLsb' 10 16).toInt :=
  BitVec.toInt_signExtend_of_le (by decide)

theorem toInt_imm26Of (w : InstrWord) : (imm26Of w).toInt = 4 * (w.extractLsb' 0 26).toInt :=
  Laws.toInt_scaled _ (by decide)

theorem toInt_imm19Of (w : InstrWord) : (imm19Of w).toInt = 4 * (w.extractLsb' 5 19).toInt :=
  Laws.toInt_scaled _ (by decide)

/-! ### A decoded operand is encodable (30_encoding R94) -/

theorem encodableShift_shiftOf (w : InstrWord) : encodableShift (shiftOf w) = true := by
  have hfield := (w.extractLsb' 22 2).isLt
  refine decide_eq_true ?_
  rw [shiftOf, BitVec.toNat_setWidth]
  omega

theorem encodableImm12_imm12Of (w : InstrWord) : encodableImm12 (imm12Of w) = true := by
  have hlow := BitVec.le_two_mul_toInt (x := w.extractLsb' 10 12)
  have hhigh := BitVec.two_mul_toInt_lt (x := w.extractLsb' 10 12)
  refine decide_eq_true ?_
  rw [toInt_imm12Of]
  omega

theorem encodableImm16_imm16Of (w : InstrWord) : encodableImm16 (imm16Of w) = true := by
  have hlow := BitVec.le_two_mul_toInt (x := w.extractLsb' 10 16)
  have hhigh := BitVec.two_mul_toInt_lt (x := w.extractLsb' 10 16)
  refine decide_eq_true ?_
  rw [toInt_imm16Of]
  omega

theorem encodableImm26_imm26Of (w : InstrWord) : encodableImm26 (imm26Of w) = true := by
  have hlow := BitVec.le_two_mul_toInt (x := w.extractLsb' 0 26)
  have hhigh := BitVec.two_mul_toInt_lt (x := w.extractLsb' 0 26)
  refine decide_eq_true ?_
  rw [toInt_imm26Of]
  omega

theorem encodableImm19_imm19Of (w : InstrWord) : encodableImm19 (imm19Of w) = true := by
  have hlow := BitVec.le_two_mul_toInt (x := w.extractLsb' 5 19)
  have hhigh := BitVec.two_mul_toInt_lt (x := w.extractLsb' 5 19)
  refine decide_eq_true ?_
  rw [toInt_imm19Of]
  omega

/-! ### The word of an instruction decodes to it, format by format -/

/-- The word of an instruction is in the instruction's row (30_encoding R89). -/
theorem encode_and_rowMask (i : Instr) : encode i &&& i.rowMask = i.rowMatch := by
  cases i with
  | and => exact Laws.RowBits.and ..
  | eor => exact Laws.RowBits.eor ..
  | sub => exact Laws.RowBits.sub ..
  | add => exact Laws.RowBits.add ..
  | orr => exact Laws.RowBits.orr ..
  | addi => exact Laws.RowBits.addi ..
  | subi => exact Laws.RowBits.subi ..
  | andi => exact Laws.RowBits.andi ..
  | orri => exact Laws.RowBits.orri ..
  | eori => exact Laws.RowBits.eori ..
  | sturOffset => exact Laws.RowBits.sturOffset ..
  | sturPreIndex => exact Laws.RowBits.sturPreIndex ..
  | sturPostIndex => exact Laws.RowBits.sturPostIndex ..
  | ldurOffset => exact Laws.RowBits.ldurOffset ..
  | ldurPreIndex => exact Laws.RowBits.ldurPreIndex ..
  | ldurPostIndex => exact Laws.RowBits.ldurPostIndex ..
  | b => exact Laws.RowBits.b ..
  | bl => exact Laws.RowBits.bl ..
  | br => exact Laws.RowBits.br ..
  | blr => exact Laws.RowBits.blr ..
  | ret => exact Laws.RowBits.ret ..
  | cbz => exact Laws.RowBits.cbz ..
  | cbnz => exact Laws.RowBits.cbnz ..

/-- R-format: the operands are read back from their fields. -/
theorem operands_encodeR (opc : BitVec 3) (rd rn rm : Reg) {sh : BitVec 6} (h : encodableShift sh = true) :
    rdOf (encodeR opc rd rn rm sh) = rd ∧ rnOf (encodeR opc rd rn rm sh) = rn ∧
      rmOf (encodeR opc rd rn rm sh) = rm ∧ shiftOf (encodeR opc rd rn rm sh) = sh := by
  obtain ⟨-, -, -, hsh, -, hrm, -, hrn, hrd⟩ := Laws.encodeR_fields opc rd rn rm sh
  have hsmall := of_decide_eq_true h
  refine ⟨hrd, hrn, hrm, ?_⟩
  rw [shiftOf, hsh]
  bv_omega

/-- I-format. -/
theorem operands_encodeI (opc : BitVec 3) (rd rn : Reg) {imm : Word} (h : encodableImm12 imm = true) :
    rdOf (encodeI opc rd rn imm) = rd ∧ rnOf (encodeI opc rd rn imm) = rn ∧ imm12Of (encodeI opc rd rn imm) = imm := by
  obtain ⟨-, -, -, himm, hrn, hrd⟩ := Laws.encodeI_fields opc rd rn imm
  refine ⟨hrd, hrn, ?_⟩
  rw [imm12Of, himm, Laws.signExtend_imm12 h]

/-- D-format. -/
theorem operands_encodeD (code : BitVec 3) (rt rn : Reg) {imm : Word} (h : encodableImm16 imm = true) :
    rdOf (encodeD code rt rn imm) = rt ∧ rnOf (encodeD code rt rn imm) = rn ∧
      imm16Of (encodeD code rt rn imm) = imm := by
  obtain ⟨-, -, himm, hrn, hrt⟩ := Laws.encodeD_fields code rt rn imm
  refine ⟨hrt, hrn, ?_⟩
  rw [imm16Of, himm, Laws.signExtend_imm16 h]

/-- B-format. -/
theorem operands_encodeB (sel : BitVec 3) {imm : Word} (h : encodableImm26 imm = true) :
    imm26Of (encodeB sel imm) = imm := by
  obtain ⟨-, -, himm⟩ := Laws.encodeB_fields sel imm
  rw [imm26Of, himm, Laws.scaled_imm26 h]

/-- BR-format. -/
theorem operands_encodeBR (sel : BitVec 3) (rn : Reg) : rnOf (encodeBR sel rn) = rn := by
  obtain ⟨-, -, -, hrn, -⟩ := Laws.encodeBR_fields sel rn
  exact hrn

/-- CB-format. -/
theorem operands_encodeCB (sel : BitVec 3) (rt : Reg) {imm : Word} (h : encodableImm19 imm = true) :
    rdOf (encodeCB sel rt imm) = rt ∧ imm19Of (encodeCB sel rt imm) = imm := by
  obtain ⟨-, -, -, himm, hrt⟩ := Laws.encodeCB_fields sel rt imm
  refine ⟨hrt, ?_⟩
  rw [imm19Of, himm, Laws.scaled_imm19 h]

/-- What a row's words decode to, at the word of an instruction of the row. -/
theorem decode_encode_of_encodedBy {e : Bool} {i j : Instr} {mk : InstrWord → Instr}
    (h : Machine.EncodedBy e j.rowMask j.rowMatch mk) (hrow : j.SameRow i) :
    decode e (encode i) = .ok (mk (encode i)) := by
  obtain ⟨hmatch, hmask, -⟩ := hrow
  rw [hmatch, hmask] at h
  exact h _ (encode_and_rowMask i)

theorem decode_encode_registerRow (e : Bool) {mk : Cond → Reg → Reg → Reg → BitVec 6 → Instr}
    (hmk : mk ∈ [Instr.and, Instr.eor, Instr.sub, Instr.add, Instr.orr]) {rd rn rm : Reg} {sh : BitVec 6}
    (h : encodableShift sh = true) : decode e (encode (mk .al rd rn rm sh)) = .ok (mk .al rd rn rm sh) := by
  obtain ⟨hword, hrow⟩ : encode (mk .al rd rn rm sh) = encodeR (mk .al rd rn rm sh).rowSelector rd rn rm sh ∧
      (mk .al 0 0 0 0).SameRow (mk .al rd rn rm sh) := by
    simp only [List.mem_cons, List.not_mem_nil, or_false] at hmk
    obtain rfl | rfl | rfl | rfl | rfl := hmk <;> exact ⟨rfl, rfl, rfl, rfl⟩
  obtain ⟨hrd, hrn, hrm, hsh⟩ := operands_encodeR (mk .al rd rn rm sh).rowSelector rd rn rm h
  rw [decode_encode_of_encodedBy (Machine.encodedBy_registerRow e hmk) hrow, hword]
  simp only [hrd, hrn, hrm, hsh]

theorem decode_encode_immediateRow {e : Bool} {mk : Cond → Reg → Reg → Word → Instr}
    (hmk : mk ∈ [Instr.addi, Instr.subi, Instr.andi, Instr.orri, Instr.eori])
    (heori : (mk .al 0 0 0).opcode = .eori → e = true) {rd rn : Reg} {imm : Word} (h : encodableImm12 imm = true) :
    decode e (encode (mk .al rd rn imm)) = .ok (mk .al rd rn imm) := by
  obtain ⟨hword, hrow⟩ : encode (mk .al rd rn imm) = encodeI (mk .al rd rn imm).rowSelector rd rn imm ∧
      (mk .al 0 0 0).SameRow (mk .al rd rn imm) := by
    simp only [List.mem_cons, List.not_mem_nil, or_false] at hmk
    obtain rfl | rfl | rfl | rfl | rfl := hmk <;> exact ⟨rfl, rfl, rfl, rfl⟩
  obtain ⟨hrd, hrn, himm⟩ := operands_encodeI (mk .al rd rn imm).rowSelector rd rn h
  rw [decode_encode_of_encodedBy (Machine.encodedBy_immediateRow hmk heori) hrow, hword]
  simp only [hrd, hrn, himm]

theorem decode_encode_loadStoreRow (e : Bool) {mk : Cond → Reg → Reg → Word → Instr}
    (hmk : mk ∈ [Instr.sturOffset, Instr.sturPreIndex, Instr.sturPostIndex, Instr.ldurOffset, Instr.ldurPreIndex,
      Instr.ldurPostIndex]) {rt rn : Reg} {imm : Word} (h : encodableImm16 imm = true) :
    decode e (encode (mk .al rt rn imm)) = .ok (mk .al rt rn imm) := by
  obtain ⟨hword, hrow⟩ : encode (mk .al rt rn imm) = encodeD (mk .al rt rn imm).rowSelector rt rn imm ∧
      (mk .al 0 0 0).SameRow (mk .al rt rn imm) := by
    simp only [List.mem_cons, List.not_mem_nil, or_false] at hmk
    obtain rfl | rfl | rfl | rfl | rfl | rfl := hmk <;> exact ⟨rfl, rfl, rfl, rfl⟩
  obtain ⟨hrt, hrn, himm⟩ := operands_encodeD (mk .al rt rn imm).rowSelector rt rn h
  rw [decode_encode_of_encodedBy (Machine.encodedBy_loadStoreRow e hmk) hrow, hword]
  simp only [hrt, hrn, himm]

theorem decode_encode_branchRow (e : Bool) {mk : Cond → Word → Instr} (hmk : mk ∈ [Instr.b, Instr.bl]) {imm : Word}
    (h : encodableImm26 imm = true) : decode e (encode (mk .al imm)) = .ok (mk .al imm) := by
  obtain ⟨hword, hrow⟩ : encode (mk .al imm) = encodeB (mk .al imm).rowSelector imm ∧
      (mk .al 0).SameRow (mk .al imm) := by
    simp only [List.mem_cons, List.not_mem_nil, or_false] at hmk
    obtain rfl | rfl := hmk <;> exact ⟨rfl, rfl, rfl, rfl⟩
  rw [decode_encode_of_encodedBy (Machine.encodedBy_branchRow e hmk) hrow, hword]
  simp only [operands_encodeB _ h]

/-- RET is among these with an operand that is not field 0 (30_encoding R96). -/
theorem decode_encode_branchRegisterRow (e : Bool) {mk : Cond → Reg → Instr} {operand : Reg → Reg}
    (hmk : (mk, operand) ∈ [(Instr.br, id), (Instr.blr, id), (Instr.ret, retTarget)]) {rn : Reg}
    (h : operand rn = rn) : decode e (encode (mk .al rn)) = .ok (mk .al rn) := by
  obtain ⟨hword, hrow⟩ : encode (mk .al rn) = encodeBR (mk .al rn).rowSelector rn ∧
      (mk .al 0).SameRow (mk .al rn) := by
    simp only [List.mem_cons, List.not_mem_nil, or_false, Prod.mk.injEq] at hmk
    obtain ⟨rfl, -⟩ | ⟨rfl, -⟩ | ⟨rfl, -⟩ := hmk <;> exact ⟨rfl, rfl, rfl, rfl⟩
  rw [decode_encode_of_encodedBy (Machine.encodedBy_branchRegisterRow e hmk) hrow, hword]
  simp only [operands_encodeBR, h]

theorem decode_encode_compareBranchRow (e : Bool) {mk : Cond → Reg → Word → Instr}
    (hmk : mk ∈ [Instr.cbz, Instr.cbnz]) {rt : Reg} {imm : Word} (h : encodableImm19 imm = true) :
    decode e (encode (mk .al rt imm)) = .ok (mk .al rt imm) := by
  obtain ⟨hword, hrow⟩ : encode (mk .al rt imm) = encodeCB (mk .al rt imm).rowSelector rt imm ∧
      (mk .al 0 0).SameRow (mk .al rt imm) := by
    simp only [List.mem_cons, List.not_mem_nil, or_false] at hmk
    obtain rfl | rfl := hmk <;> exact ⟨rfl, rfl, rfl, rfl⟩
  obtain ⟨hrt, himm⟩ := operands_encodeCB (mk .al rt imm).rowSelector rt h
  rw [decode_encode_of_encodedBy (Machine.encodedBy_compareBranchRow e hmk) hrow, hword]
  simp only [hrt, himm]

/-! ### The word of a decoded instruction, class by class -/

section

variable {w : InstrWord} {sel : BitVec 3}

theorem encodeR_operands (hsel : selectorOf w = sel) (hclass : classOf w = 0b010#3)
    (h24 : w.extractLsb' 24 2 = 0#2) (h21 : w.extractLsb' 21 1 = 0#1) (h10 : w.extractLsb' 10 6 = 0#6) :
    encodeR sel (rdOf w) (rnOf w) (rmOf w) (shiftOf w) = w := by
  have hsh : (shiftOf w).setWidth 2 = w.extractLsb' 22 2 := BitVec.setWidth_setWidth_of_le _ (by decide)
  rw [encodeR, ← hsel, hsh, ← hclass, ← h24, ← h21, ← h10]
  exact Laws.word_of_fieldsR w

theorem encodeI_operands (hsel : selectorOf w = sel) (hclass : classOf w = 0b100#3)
    (h22 : w.extractLsb' 22 4 = 0#4) :
    encodeI sel (rdOf w) (rnOf w) (imm12Of w) = w := by
  rw [encodeI, ← hsel, imm12Of, Laws.setWidth_signExtend _ (by decide), ← hclass, ← h22]
  exact Laws.word_of_fieldsI w

theorem encodeD_operands (hsel : selectorOf w = sel) (hclass : classOf w = 0b110#3) :
    encodeD sel (rdOf w) (rnOf w) (imm16Of w) = w := by
  rw [encodeD, ← hsel, imm16Of, Laws.setWidth_signExtend _ (by decide), ← hclass]
  exact Laws.word_of_fieldsD w

theorem encodeB_operands (hsel : selectorOf w = sel) (hclass : classOf w = 0b101#3) :
    encodeB sel (imm26Of w) = w := by
  rw [encodeB, ← hsel, imm26Of, Laws.extract_scaled26, ← hclass]
  exact Laws.word_of_fieldsB w

theorem encodeBR_operands (hsel : selectorOf w = sel) (hclass : classOf w = 0b101#3)
    (h10 : w.extractLsb' 10 16 = 0#16) (h0 : w.extractLsb' 0 5 = 0#5) : encodeBR sel (rnOf w) = w := by
  calc encodeBR sel (rnOf w)
      = w.extractLsb' 29 3 ++ w.extractLsb' 26 3 ++ w.extractLsb' 10 16 ++ w.extractLsb' 5 5 ++ w.extractLsb' 0 5 := by
        rw [h10, h0, ← classOf, hclass, ← selectorOf, hsel]; rfl
    _ = w := Laws.word_of_fieldsBR w

theorem encodeCB_operands (hsel : selectorOf w = sel) (hclass : classOf w = 0b101#3)
    (h24 : w.extractLsb' 24 2 = 0#2) :
    encodeCB sel (rdOf w) (imm19Of w) = w := by
  rw [encodeCB, ← hsel, imm19Of, Laws.extract_scaled19, ← hclass, ← h24]
  exact Laws.word_of_fieldsCB w

end

theorem encode_of_decodeRegister (e : Bool) {w : InstrWord} {i : Instr} (hclass : classOf w = 0b010#3)
    (h : decodeRegister w = .ok i) : i.wf e = true ∧ encode i = w := by
  unfold decodeRegister at h
  split_ifs at h with hreserved hsel hsel hsel hsel hsel <;> cases h
  all_goals
    obtain ⟨h24, h21, h10⟩ : w.extractLsb' 24 2 = 0#2 ∧ w.extractLsb' 21 1 = 0#1 ∧ w.extractLsb' 10 6 = 0#6 := by
      simpa using hreserved
    exact ⟨encodableShift_shiftOf w, encodeR_operands hsel hclass h24 h21 h10⟩

theorem encode_of_decodeImmediate {e : Bool} {w : InstrWord} {i : Instr} (hclass : classOf w = 0b100#3)
    (h : decodeImmediate e w = .ok i) : i.wf e = true ∧ encode i = w := by
  unfold decodeImmediate at h
  split_ifs at h with hreserved haddi hsubi handi horri heori <;> cases h
  all_goals
    have himm := encodableImm12_imm12Of w
    have h22 := not_not.mp hreserved
  · exact ⟨himm, encodeI_operands haddi hclass h22⟩
  · exact ⟨himm, encodeI_operands hsubi hclass h22⟩
  · exact ⟨himm, encodeI_operands handi hclass h22⟩
  · exact ⟨himm, encodeI_operands horri hclass h22⟩
  · obtain ⟨hsel, he⟩ := heori
    exact ⟨by simp [Instr.wf, himm, he], encodeI_operands hsel hclass h22⟩

theorem encode_of_decodeLoadStore (e : Bool) {w : InstrWord} {i : Instr} (hclass : classOf w = 0b110#3)
    (h : decodeLoadStore w = .ok i) : i.wf e = true ∧ encode i = w := by
  unfold decodeLoadStore at h
  split_ifs at h with hsel hsel hsel hsel hsel hsel <;> cases h
  all_goals exact ⟨encodableImm16_imm16Of w, encodeD_operands hsel hclass⟩

/-- RET is the one instruction whose operand is not its field: field 0 names X30, and the word is then the one of
30_encoding R82. -/
theorem encode_of_decodeBranch (e : Bool) {w : InstrWord} {i : Instr} (hclass : classOf w = 0b101#3)
    (h : decodeBranch w = .ok i) :
    i.wf e = true ∧ (encode i = w ∨ (w = 0x94000000#32 ∧ i = .ret .al 30#5)) := by
  unfold decodeBranch at h
  split_ifs at h with hb hbl hbr hblr hret hcbz hcbnz <;> cases h
  · exact ⟨encodableImm26_imm26Of w, .inl (encodeB_operands hb hclass)⟩
  · exact ⟨encodableImm26_imm26Of w, .inl (encodeB_operands hbl hclass)⟩
  · obtain ⟨hsel, h10, h0⟩ := hbr
    exact ⟨rfl, .inl (encodeBR_operands hsel hclass h10 h0)⟩
  · obtain ⟨hsel, h10, h0⟩ := hblr
    exact ⟨rfl, .inl (encodeBR_operands hsel hclass h10 h0)⟩
  · obtain ⟨hsel, h10, h0⟩ := hret
    have hword : encodeBR 4#3 (rnOf w) = w := encodeBR_operands hsel hclass h10 h0
    by_cases hfield : rnOf w = 0#5
    · refine ⟨by rw [hfield]; rfl, .inr ⟨?_, by rw [hfield]; rfl⟩⟩
      rw [← hword, hfield]
      rfl
    · rw [retTarget, if_neg hfield]
      exact ⟨by simpa [Instr.wf] using hfield, .inl hword⟩
  · obtain ⟨hsel, h24⟩ := hcbz
    exact ⟨encodableImm19_imm19Of w, .inl (encodeCB_operands hsel hclass h24)⟩
  · obtain ⟨hsel, h24⟩ := hcbnz
    exact ⟨encodableImm19_imm19Of w, .inl (encodeCB_operands hsel hclass h24)⟩

/-! ### The record of a word -/

theorem toRecord_injective {i j : Instr} (h : i.toRecord = j.toRecord) : i = j := by
  have hpresent := congrArg Machine.present h
  rw [Machine.present_toRecord, Machine.present_toRecord] at hpresent
  exact Machine.Presented.instr.inj hpresent

theorem decodeRecord_of_decode {e : Bool} {w : InstrWord} {i : Instr} (h : decode e w = .ok i) :
    decodeRecord e w = i.toRecord := by
  rw [decodeRecord, h]

theorem exists_decode_of_opcode_ne_invalid {e : Bool} {w : InstrWord} (h : (decodeRecord e w).opcode ≠ .invalid) :
    ∃ i, decode e w = .ok i := by
  rw [ne_eq, decodeRecord_invalid_iff, Rejected, not_forall] at h
  exact h.imp fun _ => not_not.mp

/-! ### The statements -/

/-- Settles O2: the word is in the instruction's row, the row's decoder reads the operands from their fields, and an
operand in its range survives its field. -/
theorem decodeOfEncode : Obligations.DecodeOfEncode := by
  intro e i hwf
  cases i with
  | and c | eor c | sub c | add c | orr c =>
    simp only [Instr.wf, Bool.and_eq_true, beq_iff_eq] at hwf
    obtain ⟨rfl, hsh⟩ := hwf
    exact decode_encode_registerRow e (by simp) hsh
  | addi c | subi c | andi c | orri c =>
    simp only [Instr.wf, Bool.and_eq_true, beq_iff_eq] at hwf
    obtain ⟨rfl, himm⟩ := hwf
    exact decode_encode_immediateRow (by simp) (by nofun) himm
  | eori c =>
    simp only [Instr.wf, Bool.and_eq_true, beq_iff_eq] at hwf
    obtain ⟨⟨rfl, himm⟩, he⟩ := hwf
    exact decode_encode_immediateRow (by simp) (fun _ => he) himm
  | sturOffset c | sturPreIndex c | sturPostIndex c | ldurOffset c | ldurPreIndex c | ldurPostIndex c =>
    simp only [Instr.wf, Bool.and_eq_true, beq_iff_eq] at hwf
    obtain ⟨rfl, himm⟩ := hwf
    exact decode_encode_loadStoreRow e (by simp) himm
  | b c | bl c =>
    simp only [Instr.wf, Bool.and_eq_true, beq_iff_eq] at hwf
    obtain ⟨rfl, himm⟩ := hwf
    exact decode_encode_branchRow e (by simp) himm
  | br c | blr c =>
    obtain rfl := beq_iff_eq.mp hwf
    exact decode_encode_branchRegisterRow e (operand := id) (by simp) rfl
  | ret c rn =>
    simp only [Instr.wf, Bool.and_eq_true, beq_iff_eq, bne_iff_ne] at hwf
    obtain ⟨rfl, hrn⟩ := hwf
    exact decode_encode_branchRegisterRow e (operand := retTarget) (by simp) (if_neg hrn)
  | cbz c | cbnz c =>
    simp only [Instr.wf, Bool.and_eq_true, beq_iff_eq] at hwf
    obtain ⟨rfl, himm⟩ := hwf
    exact decode_encode_compareBranchRow e (by simp) himm

/-- Settles O3: in each class the reserved fields are 0 and the other fields are the operands, so the fields put
together are the word again. -/
theorem encodeOfDecode : Obligations.EncodeOfDecode := by
  intro e w i h
  unfold decode at h
  split_ifs at h with hregister himmediate hloadStore hbranch
  · exact (encode_of_decodeRegister e hregister h).imp_right .inl
  · exact (encode_of_decodeImmediate himmediate h).imp_right .inl
  · exact (encode_of_decodeLoadStore e hloadStore h).imp_right .inl
  · exact encode_of_decodeBranch e hbranch h

/-- Settles O4: both words decode to the instruction of the one record, and each is that instruction's word or the
exception. -/
theorem distinctWordsDistinctRecords : Obligations.DistinctWordsDistinctRecords := by
  refine ⟨fun e w w' hvalid hrecord => ?_, fun e => by cases e <;> decide⟩
  obtain ⟨i, hi⟩ := exists_decode_of_opcode_ne_invalid hvalid
  obtain ⟨j, hj⟩ := exists_decode_of_opcode_ne_invalid (hrecord ▸ hvalid)
  rw [decodeRecord_of_decode hi, decodeRecord_of_decode hj] at hrecord
  obtain rfl := toRecord_injective hrecord
  have hret : encode (.ret .al 30#5) = 0x940003C0#32 := by decide
  obtain ⟨-, hword | ⟨hword, hfirst⟩⟩ := encodeOfDecode e w i hi
  · obtain ⟨-, hword' | ⟨hword', rfl⟩⟩ := encodeOfDecode e w' i hj
    · exact .inl (hword.symm.trans hword')
    · exact .inr (.inr ⟨hword.symm.trans hret, hword'⟩)
  · obtain ⟨-, hword' | ⟨hword', -⟩⟩ := encodeOfDecode e w' i hj
    · exact .inr (.inl ⟨hword, hword'.symm.trans (hfirst ▸ hret)⟩)
    · exact .inl (hword.trans hword'.symm)

/-- Settles O7: sign extension keeps the integer a field stands for, and so does the scaling, times 4. -/
theorem immediatesAreSigned : Obligations.ImmediatesAreSigned := by
  intro w
  rw [toInt_imm12Of, toInt_imm16Of, toInt_imm26Of, toInt_imm19Of]
  exact ⟨toInt_eq_unsigned_sub _, toInt_eq_unsigned_sub _, congrArg (4 * ·) (toInt_eq_unsigned_sub _),
    congrArg (4 * ·) (toInt_eq_unsigned_sub _)⟩

/-- Settles O1, each word by running the decoder on it. -/
theorem writtenWordsDecode : Obligations.WrittenWordsDecode := by
  unfold Obligations.WrittenWordsDecode
  decide

end Sys2Proof
end

section
/-! SUPPORT and the statements on flags of 40_execution_cycle and 41_dp_register. First the sign bit as a bound on
the value; then the adder's flags; then each flag of a subtraction as a comparison of its operands; last the two
statements. -/

namespace Sys2Proof.Machine

/-! ### The sign bit -/

theorem signBit_iff (a : Word) : a.getLsbD 63 = true ↔ 2 ^ 63 ≤ a.toNat := by
  have hbit : a.getLsbD 63 = decide (2 ^ 63 ≤ a.toNat) := BitVec.msb_eq_decide a
  rw [hbit, decide_eq_true_iff]

theorem signBit_eq_iff (a b : Word) :
    a.getLsbD 63 = b.getLsbD 63 ↔ (2 ^ 63 ≤ a.toNat ↔ 2 ^ 63 ≤ b.toNat) := by
  rw [Bool.eq_iff_iff, signBit_iff, signBit_iff]

/-- A word's signed value is its value, less 2^64 where the sign bit is set. -/
theorem toInt_cases (a : Word) :
    (a.toNat < 2 ^ 63 ∧ a.toInt = a.toNat) ∨ (2 ^ 63 ≤ a.toNat ∧ a.toInt = (a.toNat : Int) - 2 ^ 64) := by
  have ha := a.isLt
  rw [BitVec.toInt_eq_toNat_cond]
  split <;> omega

/-! ### The adder (41_dp_register R130) -/

theorem addWithCarry_toNat (a b : Word) (cin : Bool) :
    (addWithCarry a b cin).1.toNat = (a.toNat + b.toNat + cin.toNat) % 2 ^ 64 :=
  BitVec.toNat_ofNat ..

theorem addWithCarry_n_iff (a b : Word) (cin : Bool) :
    (addWithCarry a b cin).2.n = true ↔ (addWithCarry a b cin).1.getLsbD 63 = true :=
  Iff.rfl

theorem addWithCarry_z_iff (a b : Word) (cin : Bool) :
    (addWithCarry a b cin).2.z = true ↔ (addWithCarry a b cin).1 = 0#64 :=
  beq_iff_eq

theorem addWithCarry_c_iff (a b : Word) (cin : Bool) :
    (addWithCarry a b cin).2.c = true ↔ 2 ^ 64 ≤ a.toNat + b.toNat + cin.toNat :=
  decide_eq_true_iff

theorem addWithCarry_v_iff (a b : Word) (cin : Bool) :
    (addWithCarry a b cin).2.v = true ↔ (addWithCarry a b cin).1.toInt ≠ a.toInt + b.toInt + (cin.toNat : Int) :=
  decide_eq_true_iff

/-- The signed sum fails to fit exactly where the operands have one sign and the result the other. -/
theorem addWithCarry_v_iff_signs (a b : Word) (cin : Bool) :
    (addWithCarry a b cin).2.v = true ↔
      a.getLsbD 63 = b.getLsbD 63 ∧ (addWithCarry a b cin).1.getLsbD 63 ≠ a.getLsbD 63 := by
  have hsum := addWithCarry_toNat a b cin
  have hcin := cin.toNat_lt
  have ha := toInt_cases a
  have hb := toInt_cases b
  have hr := toInt_cases (addWithCarry a b cin).1
  rw [addWithCarry_v_iff, ne_eq, ne_eq, signBit_eq_iff, signBit_eq_iff]
  omega

/-! ### Subtraction: a plus NOT b plus 1 (41_dp_register R130, R134) -/

theorem subFlags_z_iff (a b : Word) : (subFlags a b).2.z = true ↔ a = b := by
  have hz : (subFlags a b).2.z = true ↔ (subFlags a b).1 = 0#64 := addWithCarry_z_iff a (~~~b) true
  rw [hz, subFlags_result]
  exact sub_eq_zero

/-- C is set where nothing is borrowed. -/
theorem subFlags_c_iff (a b : Word) : (subFlags a b).2.c = true ↔ b.toNat ≤ a.toNat := by
  have hc : (subFlags a b).2.c = true ↔ 2 ^ 64 ≤ a.toNat + (~~~b).toNat + 1 := addWithCarry_c_iff a (~~~b) true
  have hb := b.isLt
  rw [hc, BitVec.toNat_not]
  omega

theorem subFlags_n_iff (a b : Word) : (subFlags a b).2.n = true ↔ (a - b).getLsbD 63 = true := by
  rw [← subFlags_result]
  exact addWithCarry_n_iff a (~~~b) true

theorem subFlags_v_iff_signs (a b : Word) :
    (subFlags a b).2.v = true ↔
      a.getLsbD 63 ≠ b.getLsbD 63 ∧ (subFlags a b).1.getLsbD 63 ≠ a.getLsbD 63 := by
  have hnot : a.getLsbD 63 = (~~~b).getLsbD 63 ↔ a.getLsbD 63 ≠ b.getLsbD 63 := by
    simp [Bool.eq_not_iff]
  rw [← hnot]
  exact addWithCarry_v_iff_signs a (~~~b) true

/-- V is set where the signed difference does not fit. -/
theorem subFlags_v_iff_range (a b : Word) :
    (subFlags a b).2.v = true ↔ a.toInt - b.toInt < -2 ^ 63 ∨ 2 ^ 63 - 1 < a.toInt - b.toInt := by
  have hdiff := BitVec.toNat_sub a b
  have ha := toInt_cases a
  have hb := toInt_cases b
  rw [subFlags_v_iff_signs, subFlags_result, ne_eq, ne_eq, signBit_eq_iff, signBit_eq_iff]
  omega

/-- N and V together give the sign of the exact difference. -/
theorem subFlags_n_eq_v_iff (a b : Word) : (subFlags a b).2.n = (subFlags a b).2.v ↔ b.toInt ≤ a.toInt := by
  have hdiff := BitVec.toNat_sub a b
  have ha := toInt_cases a
  have hb := toInt_cases b
  rw [Bool.eq_iff_iff, subFlags_n_iff, subFlags_v_iff_range, signBit_iff]
  omega

/-! ### The conditions after a subtraction (40_execution_cycle R110, R112) -/

theorem comparesAs_subFlags (a b : Word) : ComparesAs a b (subFlags a b).2 := by
  have hz := subFlags_z_iff a b
  have hc := subFlags_c_iff a b
  have hnv := subFlags_n_eq_v_iff a b
  have hrange := subFlags_v_iff_range a b
  have hnat : a = b ↔ a.toNat = b.toNat := BitVec.toNat_inj.symm
  have hint : a = b ↔ a.toInt = b.toInt := BitVec.toInt_inj.symm
  obtain ⟨heq, hne, hcs, hcc, hmi, -, hvs, -, hhi, hls, hge, hlt, hgt, hle, -⟩ :=
    conditionTable (subFlags a b).2.n (subFlags a b).2.z (subFlags a b).2.c (subFlags a b).2.v
  refine ⟨heq.trans hz, hne.trans (not_congr hz), hcs.trans hc, ?cc, ?hi, ?ls, hge.trans hnv, ?lt, ?gt, ?le,
    hmi.trans (subFlags_n_iff a b), ?vs⟩
  case cc => rw [hcc, hc, not_le]
  case hi => rw [hhi, hc, hz, hnat]; omega
  case ls => rw [hls, hc, hz, hnat]; omega
  case lt => rw [hlt, ne_eq, hnv, not_le]
  case gt => rw [hgt, hnv, hz, hint]; omega
  case le => rw [hle, ne_eq, hnv, hz, hint]; omega
  case vs => rw [hvs, hrange]; omega

/-! ### The statements -/

/-- Settles O9: the flags as they are defined, the two forms of V by the range of a sum of signed words, and a
subtraction as an addition. -/
theorem adderResultAndFlags : Obligations.AdderResultAndFlags :=
  ⟨fun a b cin => ⟨addWithCarry_toNat a b cin, addWithCarry_n_iff a b cin, addWithCarry_z_iff a b cin,
      addWithCarry_c_iff a b cin, addWithCarry_v_iff a b cin⟩,
    fun a b => ⟨rfl, addFlags_result a b, addWithCarry_v_iff_signs a b false, rfl, BitVec.toNat_not,
      subFlags_result a b, subFlags_c_iff a b, subFlags_v_iff_range a b, subFlags_v_iff_signs a b⟩⟩

/-- Settles O10: both instructions complete with the flags of the subtraction of their operands. -/
theorem conditionsAfterSubtraction : Obligations.ConditionsAfterSubtraction :=
  fun c rd rn rm sh imm s hc =>
    ⟨⟨_, exec_of_holds (i := .sub c rd rn rm sh) hc, comparesAs_subFlags (s.reg rn) (s.reg rm <<< sh.toNat)⟩,
      ⟨_, exec_of_holds (i := .subi c rd rn imm) hc, comparesAs_subFlags (s.reg rn) imm⟩⟩

end Sys2Proof.Machine
end

section
/-! SUPPORT and the statements on what instructions and steps read and write. First the registers, the flags and the
memory an instruction leaves unchanged; then two states that agree on the registers it reads; then the step; last the
eight statements. -/

namespace Sys2Proof.Machine

/-! ### What an instruction leaves unchanged -/

namespace State

theorem reg_setReg_of_ne (s : State) {rd r : Reg} (v : Word) (h : r ≠ rd) : (s.setReg rd v).reg r = s.reg r := by
  rw [reg_setReg, if_neg fun hr => h hr.1]

theorem load_flags (s : State) (m : Indexing) (rt rn : Reg) (imm : Word) :
    (s.load m rt rn imm).flags = s.flags := by
  obtain ⟨-, hload⟩ | ⟨-, hload⟩ := load_cases s m rt rn imm <;> simp [hload]

theorem load_mem (s : State) (m : Indexing) (rt rn : Reg) (imm : Word) : (s.load m rt rn imm).mem = s.mem := by
  obtain ⟨-, hload⟩ | ⟨-, hload⟩ := load_cases s m rt rn imm <;> simp [hload]

theorem store_flags (s : State) (m : Indexing) (rt rn : Reg) (imm : Word) :
    (s.store m rt rn imm).flags = s.flags := by
  obtain ⟨-, hstore⟩ | ⟨-, hstore⟩ := store_cases s m rt rn imm <;> simp [hstore]

theorem load_reg_of_not_written {s : State} {m : Indexing} {c : Cond} {rt rn r : Reg} {imm : Word}
    (h : r ∉ regsWritten (ldurOf m c rt rn imm)) : (s.load m rt rn imm).reg r = s.reg r := by
  obtain ⟨-, hload⟩ | ⟨-, hload⟩ := load_cases s m rt rn imm
  · rw [hload, reg_raise]
  · rw [hload, reg_retire]
    cases m with
    | offset => exact reg_setReg_of_ne s _ (List.ne_of_not_mem_cons h)
    | preIndex | postIndex =>
      obtain ⟨hrt, hrn⟩ := List.ne_and_not_mem_of_not_mem_cons h
      exact (reg_setReg_of_ne _ _ (List.ne_of_not_mem_cons hrn)).trans (reg_setReg_of_ne s _ hrt)

theorem store_reg_of_not_written {s : State} {m : Indexing} {c : Cond} {rt rn r : Reg} {imm : Word}
    (h : r ∉ regsWritten (sturOf m c rt rn imm)) : (s.store m rt rn imm).reg r = s.reg r := by
  obtain ⟨-, hstore⟩ | ⟨-, hstore⟩ := store_cases s m rt rn imm
  · rw [hstore, reg_raise]
  · rw [hstore, reg_retire]
    cases m with
    | offset => rfl
    | preIndex | postIndex => exact reg_setReg_of_ne _ _ (List.ne_of_not_mem_cons h)

end State

open State

/-- The frame of 10_state R13. -/
theorem body_reg_of_not_written {i : Instr} {s : State} {r : Reg} (h : r ∉ regsWritten i) :
    (body i s).reg r = s.reg r := by
  cases i with
  | and | eor | orr | andi | orri | eori => exact reg_setReg_of_ne s _ (List.ne_of_not_mem_cons h)
  | add | sub | addi | subi => exact reg_setReg_of_ne s _ (List.ne_of_not_mem_cons h)
  | sturOffset c => exact store_reg_of_not_written (m := .offset) (c := c) h
  | sturPreIndex c => exact store_reg_of_not_written (m := .preIndex) (c := c) h
  | sturPostIndex c => exact store_reg_of_not_written (m := .postIndex) (c := c) h
  | ldurOffset c => exact load_reg_of_not_written (m := .offset) (c := c) h
  | ldurPreIndex c => exact load_reg_of_not_written (m := .preIndex) (c := c) h
  | ldurPostIndex c => exact load_reg_of_not_written (m := .postIndex) (c := c) h
  | b | br | ret | cbz | cbnz => rfl
  | bl | blr => exact reg_setReg_of_ne s _ (List.ne_of_not_mem_cons h)

/-- The writers of a flag (10_state R20). -/
theorem body_flags {i : Instr} {s : State} (h : i.opcode ∉ [Opcode.add, Opcode.sub, Opcode.addi, Opcode.subi]) :
    (body i s).flags = s.flags := by
  cases i with
  | and | eor | orr | andi | orri | eori => exact setReg_flags s ..
  | add | sub | addi | subi => exact absurd (by simp [Instr.opcode]) h
  | sturOffset | sturPreIndex | sturPostIndex => exact store_flags s ..
  | ldurOffset | ldurPreIndex | ldurPostIndex => exact load_flags s ..
  | b | br | ret | cbz | cbnz => rfl
  | bl | blr => exact link_flags s

/-- The writers of the memory (20_memory R42). -/
theorem body_mem {i : Instr} {s : State} (h : i.opcode ≠ .stur) : (body i s).mem = s.mem := by
  cases i with
  | and | eor | orr | andi | orri | eori => exact setReg_mem s ..
  | add | sub | addi | subi => exact setReg_mem s ..
  | sturOffset | sturPreIndex | sturPostIndex => exact absurd rfl h
  | ldurOffset | ldurPreIndex | ldurPostIndex => exact load_mem s ..
  | b | br | ret | cbz | cbnz => rfl
  | bl | blr => exact link_mem s

/-- The two ends of `exec`: the instruction's own effect, or the skip of the gate (40_execution_cycle R106). -/
theorem exec_cases {i : Instr} {s t : State} (h : exec i s = .next t) :
    (i.cond.holds s.flags = true ∧ t = body i s) ∨ (i.cond.holds s.flags = false ∧ t = s.retire s.nextPc) := by
  rw [exec_eq] at h
  cases h
  cases i.cond.holds s.flags <;> simp

/-! ### Two states that differ in registers alone -/

/-- The states agree on every field that a register's value can reach, and on the registers of `A`. -/
structure State.AgreeOn (A : Reg → Prop) (s t : State) : Prop where
  cfg : t.cfg = s.cfg
  pc : t.pc = s.pc
  flags : t.flags = s.flags
  mem : t.mem = s.mem
  running : t.running = s.running
  result : t.result = s.result
  reg : ∀ q, A q → t.reg q = s.reg q

namespace State.AgreeOn

variable {A B : Reg → Prop} {s t : State}

theorem mono (h : s.AgreeOn A t) (hBA : ∀ q, B q → A q) : s.AgreeOn B t :=
  { h with reg := fun q hq => h.reg q (hBA q hq) }

theorem writingNone (h : s.AgreeOn A t) : s.AgreeOn (fun q => A q ∨ q ∈ []) t :=
  h.mono fun _ hq => hq.resolve_right List.not_mem_nil

/-- A write of one value makes the states agree on the register written, whatever it held. -/
theorem setReg (h : s.AgreeOn A t) (rd : Reg) (v : Word) :
    (s.setReg rd v).AgreeOn (fun q => A q ∨ q ∈ [rd]) (t.setReg rd v) where
  cfg := by simp [h.cfg]
  pc := by simp [h.pc]
  flags := by simp [h.flags]
  mem := by simp [h.mem]
  running := by simp [h.running]
  result := by simp [h.result]
  reg q hq := by
    rw [reg_setReg, reg_setReg]
    split
    · rfl
    · next hkept =>
      obtain hA | hrd := hq
      · exact h.reg q hA
      · have hzero : q = xzr := by simpa [List.mem_singleton.mp hrd] using hkept
        rw [hzero]
        rfl

theorem setFlags (h : s.AgreeOn A t) (f : Flags) : (s.setFlags f).AgreeOn A (t.setFlags f) :=
  ⟨h.cfg, h.pc, rfl, h.mem, h.running, h.result, h.reg⟩

theorem setMem (h : s.AgreeOn A t) (m : List Host.Cell) :
    ({ s with mem := m } : State).AgreeOn A { t with mem := m } :=
  ⟨h.cfg, h.pc, h.flags, rfl, h.running, h.result, h.reg⟩

theorem retire (h : s.AgreeOn A t) (a : Word) : (s.retire a).AgreeOn A (t.retire a) :=
  ⟨h.cfg, rfl, h.flags, h.mem, h.running, rfl, h.reg⟩

theorem raise (h : s.AgreeOn A t) (f : Fault) : (s.raise f).AgreeOn A (t.raise f) :=
  ⟨h.cfg, h.pc, h.flags, h.mem, rfl, rfl, h.reg⟩

theorem nextPc (h : s.AgreeOn A t) : t.nextPc = s.nextPc :=
  congrArg (· + 4#64) h.pc

theorem branchTarget (h : s.AgreeOn A t) (imm : Word) : t.branchTarget imm = s.branchTarget imm :=
  congrArg (· + imm) h.pc

theorem shiftedReg (h : s.AgreeOn A t) {rm : Reg} (hrm : A rm) (sh : BitVec 6) :
    t.shiftedReg rm sh = s.shiftedReg rm sh := by
  rw [State.shiftedReg, State.shiftedReg, h.reg rm hrm]

theorem finishLogical (h : s.AgreeOn A t) (rd : Reg) (v : Word) :
    (s.finishLogical rd v).AgreeOn (fun q => A q ∨ q ∈ [rd]) (t.finishLogical rd v) := by
  rw [State.finishLogical, State.finishLogical, h.nextPc]
  exact (h.setReg rd v).retire _

theorem finishArith (h : s.AgreeOn A t) (rd : Reg) (r : Word × Flags) :
    (s.finishArith rd r).AgreeOn (fun q => A q ∨ q ∈ [rd]) (t.finishArith rd r) := by
  rw [State.finishArith, State.finishArith, h.nextPc]
  exact ((h.setReg rd r.1).setFlags r.2).retire _

theorem link (h : s.AgreeOn A t) : s.link.AgreeOn (fun q => A q ∨ q ∈ [linkReg]) t.link := by
  rw [State.link, State.link, h.nextPc]
  exact h.setReg linkReg _

/-- The same address and the same bounds: both loads fault, or both write the same values. -/
theorem load (h : s.AgreeOn A t) (m : Indexing) (c : Cond) (rt : Reg) {rn : Reg} (imm : Word) (hrn : A rn) :
    (s.load m rt rn imm).AgreeOn (fun q => A q ∨ q ∈ regsWritten (ldurOf m c rt rn imm)) (t.load m rt rn imm) ∨
      ∃ f, s.load m rt rn imm = s.raise f ∧ t.load m rt rn imm = t.raise f := by
  have ht := load_cases t m rt rn imm
  rw [h.reg rn hrn, h.cfg, h.mem, h.pc, h.nextPc] at ht
  obtain ⟨houtside, hs⟩ | ⟨hinside, hs⟩ := load_cases s m rt rn imm
  · obtain ⟨-, ht⟩ | ⟨hinside, -⟩ := ht
    · exact .inr ⟨_, hs, ht⟩
    · omega
  · obtain ⟨houtside, -⟩ | ⟨-, ht⟩ := ht
    · omega
    · rw [hs, ht]
      cases m with
      | offset => exact .inl ((h.setReg rt _).retire _)
      | preIndex | postIndex =>
        exact .inl ((((h.setReg rt _).setReg rn _).retire _).mono fun q => by simp [ldurOf, regsWritten, or_assoc])

theorem store (h : s.AgreeOn A t) (m : Indexing) (c : Cond) {rt rn : Reg} (imm : Word) (hrn : A rn) (hrt : A rt) :
    (s.store m rt rn imm).AgreeOn (fun q => A q ∨ q ∈ regsWritten (sturOf m c rt rn imm)) (t.store m rt rn imm) ∨
      ∃ f, s.store m rt rn imm = s.raise f ∧ t.store m rt rn imm = t.raise f := by
  have ht := store_cases t m rt rn imm
  have hsize : t.cfg.memSize = s.cfg.memSize := congrArg _ h.cfg
  rw [h.reg rn hrn, h.reg rt hrt, h.mem, h.nextPc] at ht
  obtain ⟨houtside, hs⟩ | ⟨hinside, hs⟩ := store_cases s m rt rn imm
  · obtain ⟨-, ht⟩ | ⟨hinside, -⟩ := ht
    · exact .inr ⟨_, hs, h.pc ▸ ht⟩
    · omega
  · obtain ⟨houtside, -⟩ | ⟨-, ht⟩ := ht
    · omega
    · rw [hs, ht]
      cases m with
      | offset => exact .inl ((h.setMem _).retire _).writingNone
      | preIndex | postIndex => exact .inl (((h.setMem _).setReg rn _).retire _)

end State.AgreeOn

/-- States that agree on the registers an instruction reads come out agreeing on those it writes too, unless both
take one fault. -/
theorem body_agreeOn {A : Reg → Prop} {s t : State} {i : Instr} (h : s.AgreeOn A t) (hread : ∀ q ∈ regsRead i, A q) :
    (body i s).AgreeOn (fun q => A q ∨ q ∈ regsWritten i) (body i t) ∨
      ∃ f, body i s = s.raise f ∧ body i t = t.raise f := by
  cases i with
  | and c rd rn rm sh | eor c rd rn rm sh | orr c rd rn rm sh =>
    rw [body, body, h.reg rn (hread rn (by simp [regsRead])), h.shiftedReg (hread rm (by simp [regsRead]))]
    exact .inl (h.finishLogical rd _)
  | sub c rd rn rm sh | add c rd rn rm sh =>
    rw [body, body, h.reg rn (hread rn (by simp [regsRead])), h.shiftedReg (hread rm (by simp [regsRead]))]
    exact .inl (h.finishArith rd _)
  | andi c rd rn imm | orri c rd rn imm | eori c rd rn imm =>
    rw [body, body, h.reg rn (hread rn (by simp [regsRead]))]
    exact .inl (h.finishLogical rd _)
  | addi c rd rn imm | subi c rd rn imm =>
    rw [body, body, h.reg rn (hread rn (by simp [regsRead]))]
    exact .inl (h.finishArith rd _)
  | sturOffset c rt rn imm =>
    exact h.store .offset c imm (hread rn (by simp [regsRead])) (hread rt (by simp [regsRead]))
  | sturPreIndex c rt rn imm =>
    exact h.store .preIndex c imm (hread rn (by simp [regsRead])) (hread rt (by simp [regsRead]))
  | sturPostIndex c rt rn imm =>
    exact h.store .postIndex c imm (hread rn (by simp [regsRead])) (hread rt (by simp [regsRead]))
  | ldurOffset c rt rn imm => exact h.load .offset c rt imm (hread rn (by simp [regsRead]))
  | ldurPreIndex c rt rn imm => exact h.load .preIndex c rt imm (hread rn (by simp [regsRead]))
  | ldurPostIndex c rt rn imm => exact h.load .postIndex c rt imm (hread rn (by simp [regsRead]))
  | b c imm =>
    rw [body, body, h.branchTarget]
    exact .inl (h.retire _).writingNone
  | bl c imm =>
    rw [body, body, h.branchTarget]
    exact .inl (h.link.retire _)
  | br c rn | ret c rn =>
    rw [body, body, h.reg rn (hread rn (by simp [regsRead]))]
    exact .inl (h.retire _).writingNone
  | blr c rn =>
    rw [body, body, h.reg rn (hread rn (by simp [regsRead]))]
    exact .inl (h.link.retire _)
  | cbz c rt imm | cbnz c rt imm =>
    rw [body, body, h.reg rt (hread rt (by simp [regsRead])), h.branchTarget, h.nextPc]
    exact .inl (h.retire _).writingNone

/-- The other registers after an instruction do not depend on one it does not read, and where it completes nor does
that one if it is written (10_state R13). -/
theorem exec_agreeOn {A : Reg → Prop} {s s' t t' : State} {i : Instr} (h : s.AgreeOn A s')
    (hread : ∀ q ∈ regsRead i, A q) (ht : exec i s = .next t) (ht' : exec i s' = .next t') :
    t.AgreeOn A t' ∧ (i.cond.holds s.flags = true → t.result = some .continued →
      t.AgreeOn (fun q => A q ∨ q ∈ regsWritten i) t') := by
  rw [exec_eq] at ht ht'
  rw [h.flags] at ht'
  cases ht
  cases ht'
  by_cases hc : i.cond.holds s.flags = true
  · simp only [if_pos hc]
    obtain hbody | ⟨f, hs, hs'⟩ := body_agreeOn h hread
    · exact ⟨hbody.mono fun _ => .inl, fun _ _ => hbody⟩
    · rw [hs, hs']
      exact ⟨h.raise f, fun _ hresult => by simp at hresult⟩
  · simp only [if_neg hc, h.nextPc]
    exact ⟨h.retire _, fun hholds => absurd hholds hc⟩

/-- A register write leaves everything but that register. -/
theorem State.agreeOn_setReg (s : State) (r : Reg) (v : Word) : s.AgreeOn (· ≠ r) (s.setReg r v) :=
  ⟨setReg_cfg .., setReg_pc .., setReg_flags .., setReg_mem .., setReg_running .., setReg_result ..,
    fun _ => reg_setReg_of_ne s v⟩

/-! ### The step (40_execution_cycle R109) -/

/-- A step that fetches a word of an instruction is `exec` of it. -/
theorem step_eq_exec {s : State} {w : InstrWord} {i : Instr} (hrunning : s.running = true)
    (hpc : s.pc ∉ s.breakpoints) (hfetch : s.fetch = some w) (hdecode : decode s.cfg.decodeEori w = .ok i) :
    step s = exec i s := by
  simp [step, hrunning, hpc, hfetch, hdecode]

/-- No step is refused or answers a fault instead of taking it. -/
theorem step_total (s : State) : ∃ t, step s = .next t := by
  obtain ⟨-, h⟩ | ⟨-, -, h⟩ | ⟨-, -, -, h⟩ | ⟨-, -, -, -, -, -, h⟩ | ⟨-, i, -, -, -, -, h⟩ := step_cases (s := s) rfl
  · exact ⟨_, h⟩
  · exact ⟨_, h⟩
  · exact ⟨_, h⟩
  · exact ⟨_, h⟩
  · exact ⟨_, h.trans (exec_eq i s)⟩

/-! ### The statements -/

/-- Settles O25: the frame of every instruction, and two runs of it from states that agree on what it reads. -/
theorem registersReadAndWritten : Obligations.RegistersReadAndWritten := by
  refine ⟨fun i s t r h hr => ?frame, fun i s t t' r v hr ht ht' => ?independence⟩
  case frame =>
    obtain ⟨-, rfl⟩ | ⟨-, rfl⟩ := exec_cases h
    · exact body_reg_of_not_written hr
    · rfl
  case independence =>
    have hread : ∀ q ∈ regsRead i, q ≠ r := fun q hq hqr => hr (hqr ▸ hq)
    obtain ⟨hagree, hwritten⟩ := exec_agreeOn (s.agreeOn_setReg r v) hread ht ht'
    exact ⟨hagree.pc, hagree.flags, hagree.mem, hagree.running, hagree.result, hagree.reg,
      fun hr hc hresult => (hwritten hc hresult).reg r (.inr hr)⟩

/-- Settles O26, instruction by instruction; a skipped one writes the pc alone. -/
theorem flagAndMemoryWriters : Obligations.FlagAndMemoryWriters := by
  intro i s t h
  obtain ⟨-, rfl⟩ | ⟨-, rfl⟩ := exec_cases h
  · exact ⟨body_flags, body_mem⟩
  · exact ⟨fun _ => rfl, fun _ => rfl⟩

/-- Settles O27, outcome by outcome. -/
theorem stepLeavesHostState : Obligations.StepLeavesHostState := by
  intro s t h
  obtain ⟨-, rfl⟩ | ⟨-, -, rfl⟩ | ⟨-, -, f, rfl⟩ | ⟨-, -, target, -, -, -, hkept⟩ := step_outcomes h
  · exact ⟨rfl, rfl, rfl⟩
  · exact ⟨rfl, rfl, rfl⟩
  · exact ⟨rfl, rfl, rfl⟩
  · exact hkept

/-- Settles O38: the four ends of a step are its four outcomes, and the host's step() is the step. -/
theorem stepOutcomes : Obligations.StepOutcomes := by
  intro s
  obtain ⟨t, h⟩ := step_total s
  refine ⟨t, h, Port.stepped_eq_next.mpr ⟨h, rfl⟩, ?_⟩
  obtain ⟨hr, rfl⟩ | ⟨hr, hb, rfl⟩ | ⟨hr, hb, f, rfl⟩ | ⟨hr, hb, target, -, hcontinued, hrunning, -⟩ := step_outcomes h
  · exact .inl ⟨rfl, hr, hr⟩
  · exact .inr (.inl ⟨rfl, hr, hb, hr⟩)
  · exact .inr (.inr (.inr ⟨f, rfl, hr, hb, rfl⟩))
  · exact .inr (.inr (.inl ⟨hcontinued, hr, hb, hrunning.trans hr⟩))

/-- Settles O41: a rejected word has the INVALID record, and an instruction's own record stands for it. -/
theorem stepIsExecuteStage : Obligations.StepIsExecuteStage := by
  intro s w hrunning hpc hfetch
  cases hdecode : decode s.cfg.decodeEori w with
  | error u =>
    rw [step_of_rejected hrunning hpc hfetch (hdecode ▸ rejected_error u), decodeRecord, hdecode]
    rfl
  | ok i =>
    rw [step_eq_exec hrunning hpc hfetch hdecode, decodeRecord, hdecode]
    exact (executeRecord_of_instr (present_toRecord i) s).symm

/-- Settles O37: the four bytes at the pc are the word the step fetches. -/
theorem stepRunsDecoded : Obligations.StepRunsDecoded :=
  fun _ _ hrunning hpc hinside => step_eq_exec hrunning hpc (State.fetch_inside hinside)

/-- Settles O53: the read after the write, and the frame of the write. -/
theorem registerFile : Obligations.RegisterFile :=
  fun s rd v => ⟨reg_setReg s rd v, reg_zero s, setReg_zero s v, setReg_flags s rd v, setReg_pc s rd v,
    setReg_sp s rd v, setReg_mem s rd v⟩

end Sys2Proof.Machine
end

section
/-! SUPPORT and the statements on fetched words of 20_memory and 95_test_vectors. First a fetch from stored bytes; then
a decoder that has EORI and one that has not; then the state with a table word at its pc; last the two statements. -/

namespace Sys2Proof.Machine

/-! ### A fetch from the bytes a store left (20_memory R55, R58) -/

/-- Four neighbouring bytes of a value, the first the least significant, are 32 of its bits. -/
theorem wordOfBytes_extractLsb' {n : Nat} (v : BitVec n) (start : Nat) :
    wordOfBytes (v.extractLsb' start 8) (v.extractLsb' (start + 8) 8) (v.extractLsb' (start + 16) 8)
      (v.extractLsb' (start + 24) 8) = v.extractLsb' start 32 := by
  have join (i j len : Nat) (hij : j = i + 8) :
      v.extractLsb' j len ++ v.extractLsb' i 8 = v.extractLsb' i (len + 8) :=
    BitVec.extractLsb'_append_extractLsb'_eq_extractLsb' hij
  rw [wordOfBytes, join (start + 16) (start + 24) 8 rfl, join (start + 8) (start + 16) 16 rfl,
    join start (start + 8) 24 rfl]

theorem wordOfBytes_bytesOfWord (w : InstrWord) :
    wordOfBytes (w.extractLsb' 0 8) (w.extractLsb' 8 8) (w.extractLsb' 16 8) (w.extractLsb' 24 8) = w :=
  (wordOfBytes_extractLsb' w 0).trans BitVec.extractLsb'_eq_self

/-- The memory at the pc holds four neighbouring bytes of a value. -/
theorem State.fetch_of_bytes {s : State} {n : Nat} {v : BitVec n} {start : Nat}
    (hinside : s.pc.toNat + 4 ≤ s.cfg.memSize)
    (hbytes : ∀ i < 4, s.byte (s.pc.toNat + i) = v.extractLsb' (start + 8 * i) 8) :
    s.fetch = some (v.extractLsb' start 32) := by
  have h0 : s.byte s.pc.toNat = v.extractLsb' start 8 := hbytes 0 (by decide)
  rw [fetch_inside hinside, h0, hbytes 1 (by decide), hbytes 2 (by decide), hbytes 3 (by decide)]
  exact congrArg some (wordOfBytes_extractLsb' v start)

/-- A fetch at a place inside the stored bytes; the memory ends below 2^64, so the address does not wrap. -/
theorem State.StoreEffect.fetch {s t : State} {ea v : Word} {rn : Reg} {wb : Option Word}
    (h : s.StoreEffect t ea v rn wb) (hinside : ea.toNat + 8 ≤ s.cfg.memSize) {k : Nat} (hk : k ≤ 4) :
    ({ t with pc := ea + BitVec.ofNat 64 k } : State).fetch = some (v.extractLsb' (8 * k) 32) := by
  obtain ⟨hstored, -, -, -, -, -, -, -, -, hcfg⟩ := h
  have hsize := s.cfg.memSize_lt
  have haddr : (ea + BitVec.ofNat 64 k).toNat = ea.toNat + k := by
    rw [BitVec.toNat_add, BitVec.toNat_ofNat]
    omega
  refine fetch_of_bytes ?_ fun i hi => ?_
  · rw [haddr, hcfg]
    omega
  · rw [haddr, Nat.add_assoc, ← Nat.mul_add]
    exact hstored (k + i) (by omega)

end Sys2Proof.Machine

namespace Sys2Proof

/-! ### The decoder with and without EORI (30_encoding R93) -/

theorem decodeImmediate_true {e : Bool} {w : InstrWord} {i : Instr} (h : decodeImmediate e w = .ok i) :
    decodeImmediate true w = .ok i := by
  unfold decodeImmediate at h ⊢
  split_ifs at h with hreserved haddi hsubi handi horri heori
  · rwa [if_neg hreserved, if_pos haddi]
  · rwa [if_neg hreserved, if_neg haddi, if_pos hsubi]
  · rwa [if_neg hreserved, if_neg haddi, if_neg hsubi, if_pos handi]
  · rwa [if_neg hreserved, if_neg haddi, if_neg hsubi, if_neg handi, if_pos horri]
  · obtain ⟨hsel, -⟩ := heori
    rwa [if_neg hreserved, if_neg haddi, if_neg hsubi, if_neg handi, if_neg horri, if_pos ⟨hsel, rfl⟩]

/-- DECODE_EORI only adds instructions. -/
theorem decode_true_of_decode {e : Bool} {w : InstrWord} {i : Instr} (h : decode e w = .ok i) :
    decode true w = .ok i := by
  unfold decode at h ⊢
  split_ifs at h ⊢
  · exact h
  · exact decodeImmediate_true h
  · exact h
  · exact h

/-- The words it adds are those of EORI's row. -/
theorem decode_of_decode_true {e : Bool} {w : InstrWord} {i : Instr} (h : decode true w = .ok i)
    (he : isEoriWord w = true → e = true) : decode e w = .ok i := by
  obtain ⟨hrow, -⟩ := selects_of_decode h
  have heori : i.opcode = .eori → e = true := by
    intro hopcode
    cases i with
    | eori => exact he (beq_iff_eq.mpr hrow)
    | _ => cases hopcode
  obtain ⟨j, hj, -⟩ := decode_of_selects ⟨hrow, heori⟩
  have hij := (decode_true_of_decode hj).symm.trans h
  cases hij
  exact hj

/-- The table is read with DECODE_EORI, off the bytes of the word itself. -/
theorem decode_of_decodeTableWord {nbits w : Nat} {i : Instr} (h : decodeTableWord nbits w = some i) :
    decode true (tableWord nbits w) = .ok i := by
  rw [decodeTableWord, bytesOfWord, decodeBytes, Machine.wordOfBytes_bytesOfWord] at h
  cases hdecode : decode true (tableWord nbits w) with
  | ok j => simpa [hdecode] using h
  | error u => simp [hdecode] at h

end Sys2Proof

namespace Sys2Proof.Machine

/-! ### The state with a table word at its pc -/

/-- Where the four bytes lie inside the memory, they are stored. -/
theorem State.withFetchWord_inside {s : State} (nbits w : Nat) (h : s.pc.toNat + 4 ≤ s.cfg.memSize) :
    s.withFetchWord nbits w =
      { s with
        cfg := { s.cfg with decodeEori := s.cfg.decodeEori || isEoriWord (tableWord nbits w) }
        running := true
        breakpoints := removeAddress s.pc s.breakpoints
        mem := Memory.setBytes s.mem s.pc.toNat (bytesOfWord (tableWord nbits w)) } := by
  rw [withFetchWord, memLoad_eq_some.mpr ⟨h, rfl⟩, Option.getD_some]

/-- The next step fetches the word that was placed. -/
theorem State.withFetchWord_fetch {s : State} (nbits w : Nat) (hwf : Memory.wf s.mem)
    (h : s.pc.toNat + 4 ≤ s.cfg.memSize) : (s.withFetchWord nbits w).fetch = some (tableWord nbits w) := by
  have hstored := Memory.byte_setBytes_inside hwf s.pc.toNat (bytesOfWord (tableWord nbits w))
  rw [← BitVec.extractLsb'_eq_self (x := tableWord nbits w), withFetchWord_inside nbits w h]
  refine fetch_of_bytes h fun i hi => (hstored i hi).trans ?_
  interval_cases i <;> rfl

/-! ### The statements -/

/-- Settles O33: the fetch reads four of the eight bytes the store's effect names. -/
theorem fetchSeesStore : Obligations.FetchSeesStore := by
  rintro s rt rn imm ⟨hwf, -⟩ hinside
  have hstore : s.StoreEffect (s.store .offset rt rn imm) (s.reg rn + imm) (s.reg rt) rn none :=
    State.store_effect rt hwf hinside
  exact ⟨_, exec_sturOf .offset rt rn imm rfl, fun k => hstore.fetch hinside⟩

/-- Settles O43: the step fetches the word placed at the pc, and has EORI where the word needs it. -/
theorem fetchWordRuns : Obligations.FetchWordRuns := by
  rintro s nbits w i ⟨hwf, -⟩ hinside htable
  have hplaced := State.withFetchWord_inside nbits w hinside
  have hdecode : decode (s.withFetchWord nbits w).cfg.decodeEori (tableWord nbits w) = .ok i := by
    refine decode_of_decode_true (decode_of_decodeTableWord htable) fun heori => ?_
    rw [hplaced, heori, Bool.or_true]
  have hpc : (s.withFetchWord nbits w).pc ∉ (s.withFetchWord nbits w).breakpoints := by
    rw [hplaced]
    exact fun hmem => ((mem_removeAddress s.pc s.pc s.breakpoints).mp hmem).1 rfl
  exact step_eq_exec (by rw [hplaced]) hpc (State.withFetchWord_fetch nbits w hwf hinside) hdecode

end Sys2Proof.Machine
end

section
/-! SUPPORT and the statements on soundness, on a Halted machine and on runs. First what an operation can do to the
memory, and what then keeps the soundness of the state; then runs and lists of commands that answer, and runs as steps;
last the six statements. -/

namespace Sys2Proof.Machine

/-! ### The memory an operation leaves -/

/-- The memory is as it was, or bytes inside MEM_SIZE are set in it: all that any operation but reset() does to it
(20_memory R42, R49). -/
def State.MemoryWritten (s t : State) : Prop :=
  t.mem = s.mem ∨ ∃ a bs, a + bs.length ≤ s.cfg.memSize ∧ t.mem = Memory.setBytes s.mem a bs

theorem State.store_memoryWritten (s : State) (m : Indexing) (rt rn : Reg) (imm : Word) :
    s.MemoryWritten (s.store m rt rn imm) := by
  obtain ⟨-, hstore⟩ | ⟨hinside, hstore⟩ := store_cases s m rt rn imm
  · exact .inl (by simp [hstore])
  · exact .inr ⟨_, leBytes 8 (s.reg rt).toNat, by rw [leBytes_length]; exact hinside, by simp [hstore]⟩

theorem body_memoryWritten (i : Instr) (s : State) : s.MemoryWritten (body i s) := by
  cases i with
  | sturOffset | sturPreIndex | sturPostIndex => exact State.store_memoryWritten s ..
  | _ => exact .inl (body_mem (by simp [Instr.opcode]))

theorem step_memoryWritten {s t : State} (h : step s = .next t) : s.MemoryWritten t := by
  obtain ⟨-, ht⟩ | ⟨-, -, ht⟩ | ⟨-, -, -, ht⟩ | ⟨-, -, -, -, -, -, ht⟩ | ⟨-, i, -, -, -, -, ht⟩ := step_cases h
  · cases ht; exact .inl rfl
  · cases ht; exact .inl rfl
  · cases ht; exact .inl rfl
  · cases ht; exact .inl rfl
  · obtain ⟨-, rfl⟩ | ⟨-, rfl⟩ := exec_cases ht.symm
    · exact body_memoryWritten i s
    · exact .inl rfl

theorem Port.write_memoryWritten (s : State) (n : Nat) (a : Word) (v : Nat) :
    s.MemoryWritten (Port.attempt s (Port.write s n a v)).1 := by
  rw [Port.write_eq]
  split
  · next hinside => exact .inr ⟨_, _, by rw [leBytes_length]; exact hinside, rfl⟩
  · exact .inl rfl

theorem Port.loadProgram_memoryWritten (s : State) (bytes : List Byte) (a : Word) :
    s.MemoryWritten (Port.attempt s (Port.loadProgram s bytes a)).1 := by
  rw [Port.loadProgram_eq]
  split
  · next hinside => exact .inr ⟨_, _, hinside, rfl⟩
  · exact .inl rfl

theorem Port.replyRead_mem (s : State) (e : Except PortError Nat) : (Port.replyRead s e).1.mem = s.mem := by
  cases e <;> rfl

theorem Port.replyWord_mem (s : State) (e : Except PortError Word) : (Port.replyWord s e).1.mem = s.mem := by
  cases e <;> rfl

theorem Port.set_mem (s : State) (i : Nat) (v : Word) : (Port.set s i v).mem = s.mem := by
  unfold Port.set
  split
  · exact State.setReg_mem ..
  · rfl

/-! ### The soundness of the state -/

theorem inv_construct (cfg : Config) : (State.construct cfg).Inv :=
  ⟨⟨.nil, by simp⟩, by simp, .nil, by simp [haltedResult]⟩

/-- A memory write keeps the canonical form and the bound; the other three parts are to be shown. -/
theorem State.Inv.of_memoryWritten {s t : State} (hs : s.Inv) (hmem : s.MemoryWritten t) (hcfg : t.cfg = s.cfg)
    (hbreakpoints : t.breakpoints = s.breakpoints)
    (hrunning : t.running = false ↔ haltedResult t.result = true) : t.Inv := by
  obtain ⟨hwf, hbound, hrising, -⟩ := hs
  rw [State.Inv, hcfg, hbreakpoints]
  obtain heq | ⟨a, bs, hinside, heq⟩ := hmem
  · rw [heq]
    exact ⟨hwf, hbound, hrising, hrunning⟩
  · rw [heq]
    refine ⟨Memory.wf_setBytes hwf a bs, fun c hc => ?_, hrising, hrunning⟩
    obtain ⟨-, hbelow⟩ | hold := Memory.mem_setBytes hc
    · omega
    · exact hbound c hold

/-- Every step reports an outcome that agrees with the run flag it leaves (40_execution_cycle R100). -/
theorem step_running_iff {s t : State} (h : step s = .next t) :
    t.running = false ↔ haltedResult t.result = true := by
  obtain ⟨hr, rfl⟩ | ⟨hr, -, rfl⟩ | ⟨-, -, f, rfl⟩ | ⟨hr, -, target, -, hcontinued, hrunning, -⟩ := step_outcomes h
  · simp [hr, haltedResult]
  · simp [hr, haltedResult]
  · simp [haltedResult]
  · simp [hrunning, hr, hcontinued, haltedResult]

theorem step_keeps_inv {s t : State} (hs : s.Inv) (h : step s = .next t) : t.Inv := by
  obtain ⟨-, hbreakpoints, hcfg⟩ := stepLeavesHostState s t h
  exact hs.of_memoryWritten (step_memoryWritten h) hcfg hbreakpoints (step_running_iff h)

/-- An operation that writes none of the control fields keeps the parameters and the soundness. -/
theorem State.SameControl.keeps_inv {s t : State} (h : s.SameControl t) (hs : s.Inv) (hmem : s.MemoryWritten t) :
    t.Inv ∧ t.cfg = s.cfg := by
  have ⟨_, _, _, hrunning⟩ := hs
  exact ⟨hs.of_memoryWritten hmem h.cfg h.breakpoints (by rw [h.running, h.result]; exact hrunning), h.cfg⟩

/-- Every command of the host port (70_reset_and_hazards R273). -/
theorem Port.apply_keeps_inv {c : Command} {s t : State} {r : Reply} (hs : s.Inv)
    (h : Port.apply c s = .next (t, r)) : t.Inv ∧ t.cfg = s.cfg := by
  have same {p : State × Reply} (hp : s.SameControl p.1) (hmem : s.MemoryWritten p.1)
      (e : (.next p : Host.Outcome (State × Reply) Fault Refusal) = .next (t, r)) : t.Inv ∧ t.cfg = s.cfg := by
    cases e; exact hp.keeps_inv hs hmem
  have ⟨hwf, hbound, hrising, hrunning⟩ := hs
  cases c with
  | reset => cases h; exact ⟨inv_construct s.cfg, rfl⟩
  | step =>
    obtain ⟨hstep, -⟩ := Port.stepped_eq_next.mp h
    obtain ⟨-, -, hcfg⟩ := stepLeavesHostState s t hstep
    exact ⟨step_keeps_inv hs hstep, hcfg⟩
  | run k =>
    obtain ⟨hrun, -⟩ := Port.finished_eq_next.mp h
    refine Port.run_keeps (fun u => u.Inv ∧ u.cfg = s.cfg) (fun u v ⟨hu, hcfg⟩ hstep => ?_) k s t ⟨hs, rfl⟩ hrun
    obtain ⟨-, -, hkept⟩ := stepLeavesHostState u v hstep
    exact ⟨step_keeps_inv hu hstep, hkept.trans hcfg⟩
  | setBreakpoint a => cases h; exact ⟨⟨hwf, hbound, pairwise_insertAddress a hrising, hrunning⟩, rfl⟩
  | clearBreakpoint a => cases h; exact ⟨⟨hwf, hbound, pairwise_removeAddress a hrising, hrunning⟩, rfl⟩
  | loadProgram bytes a =>
    exact same (Port.loadProgram_sameControl s bytes a) (Port.loadProgram_memoryWritten s bytes a) h
  | set i v => exact same (Port.set_sameControl s i v) (.inl (Port.set_mem s i v)) h
  | write8 | write32 | write64 => exact same (Port.write_sameControl ..) (Port.write_memoryWritten ..) h
  | get i => exact same (Port.replyWord_sameControl s _) (.inl (Port.replyWord_mem s _)) h
  | read8 | read32 | read64 => exact same (Port.replyRead_sameControl s _) (.inl (Port.replyRead_mem s _)) h
  | getPc | getSp | getFlags => exact same (.refl s) (.inl rfl) h
  | setPc | setSp | setFlags => exact same ⟨rfl, rfl, rfl, rfl⟩ (.inl rfl) h

/-! ### Runs and commands that answer (60_exceptions R243) -/

theorem Port.run_succ {k : Nat} {s u : State} (h : step s = .next u) :
    Port.run (k + 1) s = if u.result = some .continued then Port.run k u else .next u := by
  rw [Port.run, h]

theorem Port.run_total (k : Nat) (s : State) : ∃ t, Port.run k s = .next t := by
  induction k generalizing s with
  | zero => exact ⟨s, rfl⟩
  | succ k ih =>
    obtain ⟨u, hstep⟩ := step_total s
    rw [Port.run_succ hstep]
    split
    · exact ih u
    · exact ⟨u, rfl⟩

theorem Port.apply_total (c : Command) (s : State) : ∃ t r, Port.apply c s = .next (t, r) := by
  cases c with
  | step =>
    obtain ⟨t, h⟩ := step_total s
    exact ⟨t, _, Port.stepped_eq_next.mpr ⟨h, rfl⟩⟩
  | run k =>
    obtain ⟨t, h⟩ := Port.run_total k s
    exact ⟨t, _, Port.finished_eq_next.mpr ⟨h, rfl⟩⟩
  | _ => exact ⟨_, _, rfl⟩

/-- No command but reset() starts a Halted machine. -/
theorem applyAll_keeps_halted {cs : List Command} {s : State} (hcs : Command.reset ∉ cs) (hs : s.running = false) :
    ∃ t, applyAll cs s = .next t ∧ t.running = false := by
  induction cs generalizing s with
  | nil => exact ⟨s, rfl, hs⟩
  | cons c cs ih =>
    obtain ⟨hc, hrest⟩ := List.ne_and_not_mem_of_not_mem_cons hcs
    obtain ⟨u, r, happly⟩ := Port.apply_total c s
    have hu : u.running = false :=
      Bool.eq_false_iff.mpr fun hu => hc (Port.apply_sets_running happly hs hu).symm
    obtain ⟨t, hall, ht⟩ := ih hrest hu
    exact ⟨t, by rw [applyAll, happly]; exact hall, ht⟩

/-! ### A run as steps (40_execution_cycle R120) -/

/-- `steps` from its first step on. -/
theorem steps_succ {s u : State} (h : step s = .next u) (n : Nat) : steps (n + 1) s = steps n u := by
  induction n with
  | zero => simp [steps, h]
  | succ n ih => rw [steps, ih, steps]

/-- The run of `k` steps at most from `s` ends in `t` after `n` of them: all but the last continued, and the last
did not where there was fuel left. -/
structure EndsAfter (k : Nat) (s t : State) (n : Nat) : Prop where
  le_fuel : n ≤ k
  steps_eq : steps n s = .next t
  pos : 0 < k → 0 < n
  continued : ∀ j, 0 < j → j < n → ∃ u, steps j s = .next u ∧ u.result = some .continued
  stopped : n < k → t.result ≠ some .continued

theorem EndsAfter.of_continued {k n : Nat} {s t u : State} (h : EndsAfter k u t n) (hstep : step s = .next u)
    (hu : u.result = some .continued) : EndsAfter (k + 1) s t (n + 1) where
  le_fuel := Nat.succ_le_succ h.le_fuel
  steps_eq := (steps_succ hstep n).trans h.steps_eq
  pos _ := Nat.succ_pos n
  continued j hj hjn := by
    obtain ⟨j, rfl⟩ := Nat.exists_eq_succ_of_ne_zero hj.ne'
    rw [steps_succ hstep]
    obtain rfl | hpos := j.eq_zero_or_pos
    · exact ⟨u, rfl, hu⟩
    · exact h.continued j hpos (Nat.lt_of_succ_lt_succ hjn)
  stopped hn := h.stopped (Nat.lt_of_succ_lt_succ hn)

theorem EndsAfter.of_stopped {s u : State} (k : Nat) (hstep : step s = .next u)
    (hu : u.result ≠ some .continued) : EndsAfter (k + 1) s u 1 where
  le_fuel := Nat.succ_le_succ (Nat.zero_le k)
  steps_eq := steps_succ hstep 0
  pos _ := Nat.one_pos
  continued j hj hj1 := by omega
  stopped _ := hu

theorem Port.run_endsAfter {k : Nat} {s t : State} (h : Port.run k s = .next t) : ∃ n, EndsAfter k s t n := by
  induction k generalizing s with
  | zero =>
    cases h
    exact ⟨0, le_rfl, rfl, id, fun j _ hj => absurd hj j.not_lt_zero, fun hn => absurd hn (Nat.lt_irrefl 0)⟩
  | succ k ih =>
    obtain ⟨u, hstep⟩ := step_total s
    rw [Port.run_succ hstep] at h
    split at h
    · next hu =>
      obtain ⟨n, hends⟩ := ih h
      exact ⟨n + 1, hends.of_continued hstep hu⟩
    · next hu =>
      cases h
      exact ⟨1, .of_stopped k hstep hu⟩

/-! ### The statements -/

/-- Settles O44: a step writes the memory inside its bound, leaves the breakpoint set and reports its run flag. -/
theorem stepKeepsInvariant : Obligations.StepKeepsInvariant :=
  fun _ _ => step_keeps_inv

/-- Settles O45, command by command; a run keeps what each of its steps keeps. -/
theorem hostKeepsInvariant : Obligations.HostKeepsInvariant :=
  fun _ _ _ _ => Port.apply_keeps_inv

/-- Settles O46: the memory and the breakpoint set are empty, and no step was taken. -/
theorem resetIsSound : Obligations.ResetIsSound :=
  ⟨inv_construct, inv_construct Config.reference⟩

/-- Settles O49: every command answers and none of the list starts the machine; a step and a run of it then report
already-halted. -/
theorem haltedUntilReset : Obligations.HaltedUntilReset := by
  intro cs s hcs hs
  obtain ⟨t, hall, ht⟩ := applyAll_keeps_halted hcs hs
  have hstep := step_of_halted ht
  exact ⟨t, hall, ht, hstep, fun k => Port.run_succ hstep⟩

/-- Settles O50, by induction on the fuel. -/
theorem runEndsAtFirstStop : Obligations.RunEndsAtFirstStop := by
  intro k s
  obtain ⟨t, hrun⟩ := Port.run_total k s
  obtain ⟨n, hends⟩ := Port.run_endsAfter hrun
  exact ⟨t, hrun, Port.finished_eq_next.mpr ⟨hrun, rfl⟩, n, hends.le_fuel, hends.steps_eq, hends.pos, hends.continued,
    hends.stopped⟩

/-- Settles O54: each port is its field. -/
theorem dedicatedPorts : Obligations.DedicatedPorts :=
  fun _ _ _ => ⟨rfl, rfl, rfl, rfl, rfl, rfl⟩

end Sys2Proof.Machine
end
